-- ==== Sys2Proof/Word.lean ====
section
/-! DEFINITION. The two word types of the block: the 32-bit operation word (R50) and the byte a host image is made of
(R44). Value patterns are `BitVec W` for the width `W` of the instance (R10); they need no name of their own. -/

namespace Sys2Proof

/-- An operation word: every instruction is one 32-bit word, bit 31 the most significant (R50). -/
abbrev OpWord := BitVec 32

/-- A byte of a host image (R44). -/
abbrev Byte := BitVec 8

end Sys2Proof
end

