-- ==== Sys2Proof/Config.lean ====
section
/-! DEFINITION. The elaboration parameters of an instance (00_scope.md R1): the width `W`, one of 8, 16, 32 and 64, and
the precision `P`, `0 <= P < W`. They are fixed when the instance is elaborated; no operation writes them (R1). The
block leaves no value open (93_implementation_defined.md: "No behaviour of the block has the treatment `any value`"),
so there is no free value here. -/

namespace Sys2Proof

/-- The four supported widths (R1, R14). A width outside these has no instance (R2). -/
inductive Width where
  | w8
  | w16
  | w32
  | w64
  deriving DecidableEq, Repr

/-- The number of bits of a width (R14, first column). -/
def Width.bits : Width → Nat
  | .w8 => 8
  | .w16 => 16
  | .w32 => 32
  | .w64 => 64

/-- One configuration `fixed<W,P>`. The bound `P < W` of R1 is part of the type, so an illegal configuration (R2, R3)
cannot be written down. -/
structure Config where
  width : Width
  prec : Fin width.bits
  deriving DecidableEq, Repr

/-- The width `W` of an instance, in bits (R4). -/
abbrev Config.W (c : Config) : Nat := c.width.bits

/-- The precision `P` of an instance: its number of fraction bits (R4). -/
abbrev Config.P (c : Config) : Nat := c.prec.val

end Sys2Proof
end

