-- ==== Sys2Proof/Syntax.lean ====
section
/-! DEFINITION. The instructions of the block: one constructor per row of spec/opcode_table.json (30_encoding.md R53),
the three formats (R51), the six comparison conditions (R54), and the pseudo-instructions of the assembler (R58 to
R60), which are only other spellings of those instructions. -/

namespace Sys2Proof

/-- A value register number, `x0` .. `x15` (R16, R52). -/
abbrev Reg := Fin 16

/-- The three word formats of R51. -/
inductive Format where
  | D
  | DA
  | DAB
  deriving DecidableEq, Repr

/-- The six conditions of a comparison (R54). -/
inductive Cond where
  | eq
  | ne
  | lt
  | gt
  | le
  | ge
  deriving DecidableEq, Repr

/-- The 27 instructions of R53. Operand order is the assembler's: `rd`, then `ra`, then `rb` (R57). -/
inductive Instr where
  /-- NEW, default construction (R80). -/
  | new (rd : Reg)
  /-- MOV, copy a value (R81). -/
  | mov (rd ra : Reg)
  /-- FROMINT, construct from a plain integer (R82). -/
  | fromInt (rd ra : Reg)
  /-- FROMPAIR, construct from an integer part and fraction digits (R83). -/
  | fromPair (rd ra rb : Reg)
  /-- TOINT, convert to a plain integer (R84). -/
  | toInt (rd ra : Reg)
  /-- ADD.FF, fixed plus fixed (R103). -/
  | addFF (rd ra rb : Reg)
  /-- SUB.FF, fixed minus fixed (R104). -/
  | subFF (rd ra rb : Reg)
  /-- MUL.FF, fixed times fixed (R105). -/
  | mulFF (rd ra rb : Reg)
  /-- DIV.FF, fixed divided by fixed (R106). -/
  | divFF (rd ra rb : Reg)
  /-- ADD.FI, fixed plus raw integer (R121). -/
  | addFI (rd ra rb : Reg)
  /-- SUB.FI, fixed minus raw integer (R122). -/
  | subFI (rd ra rb : Reg)
  /-- MUL.FI, fixed times integer factor (R123). -/
  | mulFI (rd ra rb : Reg)
  /-- DIV.FI, fixed divided by integer factor (R124). -/
  | divFI (rd ra rb : Reg)
  /-- SUB.IF, integer minus fixed (R125). -/
  | subIF (rd ra rb : Reg)
  /-- DIV.IF, integer divided by fixed (R126). -/
  | divIF (rd ra rb : Reg)
  /-- CEQ.FF (R143). -/
  | ceqFF (rd ra rb : Reg)
  /-- CNE.FF (R144). -/
  | cneFF (rd ra rb : Reg)
  /-- CLT.FF (R145). -/
  | cltFF (rd ra rb : Reg)
  /-- CGT.FF (R146). -/
  | cgtFF (rd ra rb : Reg)
  /-- CLE.FF (R147). -/
  | cleFF (rd ra rb : Reg)
  /-- CGE.FF (R148). -/
  | cgeFF (rd ra rb : Reg)
  /-- CEQ.FI (R149). -/
  | ceqFI (rd ra rb : Reg)
  /-- CNE.FI (R150). -/
  | cneFI (rd ra rb : Reg)
  /-- CLT.FI (R151). -/
  | cltFI (rd ra rb : Reg)
  /-- CGT.FI (R152). -/
  | cgtFI (rd ra rb : Reg)
  /-- CLE.FI (R153). -/
  | cleFI (rd ra rb : Reg)
  /-- CGE.FI (R154). -/
  | cgeFI (rd ra rb : Reg)
  deriving DecidableEq, Repr

/-- The register an instruction names as its destination; every instruction has exactly one (R20). -/
def Instr.dest : Instr → Reg
  | .new rd | .mov rd _ | .fromInt rd _ | .fromPair rd _ _ | .toInt rd _
  | .addFF rd _ _ | .subFF rd _ _ | .mulFF rd _ _ | .divFF rd _ _
  | .addFI rd _ _ | .subFI rd _ _ | .mulFI rd _ _ | .divFI rd _ _
  | .subIF rd _ _ | .divIF rd _ _
  | .ceqFF rd _ _ | .cneFF rd _ _ | .cltFF rd _ _ | .cgtFF rd _ _ | .cleFF rd _ _ | .cgeFF rd _ _
  | .ceqFI rd _ _ | .cneFI rd _ _ | .cltFI rd _ _ | .cgtFI rd _ _ | .cleFI rd _ _ | .cgeFI rd _ _ => rd

/-- The registers an instruction reads, in the order it reads them: `ra`, then `rb`, as its format has them (R165). -/
def Instr.sources : Instr → List Reg
  | .new _ => []
  | .mov _ ra | .fromInt _ ra | .toInt _ ra => [ra]
  | .fromPair _ ra rb
  | .addFF _ ra rb | .subFF _ ra rb | .mulFF _ ra rb | .divFF _ ra rb
  | .addFI _ ra rb | .subFI _ ra rb | .mulFI _ ra rb | .divFI _ ra rb
  | .subIF _ ra rb | .divIF _ ra rb
  | .ceqFF _ ra rb | .cneFF _ ra rb | .cltFF _ ra rb | .cgtFF _ ra rb | .cleFF _ ra rb | .cgeFF _ ra rb
  | .ceqFI _ ra rb | .cneFI _ ra rb | .cltFI _ ra rb | .cgtFI _ ra rb | .cleFI _ ra rb | .cgeFI _ ra rb => [ra, rb]

/-- The eight instructions that have a two-operand compound spelling (R58). -/
inductive CompoundOp where
  | addFF
  | subFF
  | mulFF
  | divFF
  | addFI
  | subFI
  | mulFI
  | divFI
  deriving DecidableEq, Repr

/-- The pseudo-instructions (R58 to R60); R61 says that there are no others. -/
inductive Pseudo where
  /-- `OP rd, rb`, the source's `a op= b` (R58). -/
  | compound (op : CompoundOp) (rd rb : Reg)
  /-- `ADD.IF rd, ra, rb`: plain integer `x[ra]` plus fixed `x[rb]` (R59). -/
  | addIF (rd ra rb : Reg)
  /-- `MUL.IF rd, ra, rb`: plain integer `x[ra]` times fixed `x[rb]` (R59). -/
  | mulIF (rd ra rb : Reg)
  /-- `Ccc.IF rd, ra, rb`: plain integer `x[ra]` against fixed `x[rb]` (R60). -/
  | cmpIF (cond : Cond) (rd ra rb : Reg)
  deriving DecidableEq, Repr

end Sys2Proof
end

