-- ==== Sys2Proof/WellFormed.lean ====
section
/-! DEFINITION. The checks on what the outside hands to the block: the elaboration parameters (R1 to R3), the length of
a program (R21, R41), and the operand list of an assembly line (R52, R57). A term of `Instr` needs no check of its own:
its register fields are `Fin 16` (R52), and no rule forbids a combination of registers (R20). -/

namespace Sys2Proof

/-- The legal elaboration parameters: `W` one of 8, 16, 32, 64 and `0 <= P < W` (R1). -/
def legalParameters (W P : Nat) : Bool :=
  (W == 8 || W == 16 || W == 32 || W == 64) && decide (P < W)

/-- A program has at most `2^32 - 1` words (R21, R41). -/
def legalProgram (ws : List OpWord) : Bool :=
  decide (ws.length ≤ 2 ^ 32 - 1)

/-- How many register operands a format takes (R57). -/
def Format.operandCount : Format → Nat
  | .D => 1
  | .DA => 2
  | .DAB => 3

/-- A list of register numbers fits a format: as many as the format takes, each `0 .. 15` (R52, R57). -/
def legalOperands (f : Format) (ns : List Nat) : Bool :=
  ns.length == f.operandCount && ns.all (fun n => decide (n < 16))

end Sys2Proof
end

