-- ==== Sys2Proof/Decode.lean ====
section
/-! DEFINITION. The decoder (30_encoding.md R50 to R56), total on any 32-bit word and on any bytes, and after it the
encoder (R63), the opcode map as mask and match rows (R51, R53), the comparison decoder by structure (R54) and the
little-endian byte images of the host (R44). -/

namespace Sys2Proof

/-- Why a word or an image is not an instruction. The first two are `ILLEGAL_INSTRUCTION` (R161); the third concerns a
byte image only, since the block fetches whole words (R45). -/
inductive DecodeReject where
  /-- The opcode is not one of the 27 of R53 (R55). -/
  | reservedOpcode
  /-- A bit the format does not use is 1 (R51). -/
  | mustBeZero
  /-- Fewer than four bytes are left in the image. DESIGN CHOICE (assumption 15): R44 is silent on such an image. -/
  | notAWord
  deriving DecidableEq, Repr

/-- `opcode = word[31:24]` (R50). -/
def opcodeField (w : OpWord) : BitVec 8 := w.extractLsb' 24 8

/-- `rd = word[23:20]`, read as an unsigned register number (R50, R52). -/
def rdField (w : OpWord) : Reg := (w.extractLsb' 20 4).toFin

/-- `ra = word[19:16]` (R50, R52). -/
def raField (w : OpWord) : Reg := (w.extractLsb' 16 4).toFin

/-- `rb = word[15:12]` (R50, R52). -/
def rbField (w : OpWord) : Reg := (w.extractLsb' 12 4).toFin

/-- The bits a format does not use are all zero (R51). -/
def mustBeZeroOk (f : Format) (w : OpWord) : Bool :=
  match f with
  | .D => w.extractLsb' 0 20 == 0#20
  | .DA => w.extractLsb' 0 16 == 0#16
  | .DAB => w.extractLsb' 0 12 == 0#12

/-- A listed opcode of format `f`: the instruction, if the must-be-zero bits are zero (R51, R56). -/
def checked (f : Format) (w : OpWord) (i : Instr) : Except DecodeReject Instr :=
  if mustBeZeroOk f w then .ok i else .error .mustBeZero

/-- The decode procedure of R56, with the opcode map of R53. Every opcode not listed is reserved (R55). -/
def decode (w : OpWord) : Except DecodeReject Instr :=
  match (opcodeField w).toNat with
  | 0x01 => checked .D w (.new (rdField w))
  | 0x02 => checked .DA w (.mov (rdField w) (raField w))
  | 0x03 => checked .DA w (.fromInt (rdField w) (raField w))
  | 0x04 => checked .DAB w (.fromPair (rdField w) (raField w) (rbField w))
  | 0x05 => checked .DA w (.toInt (rdField w) (raField w))
  | 0x10 => checked .DAB w (.addFF (rdField w) (raField w) (rbField w))
  | 0x11 => checked .DAB w (.subFF (rdField w) (raField w) (rbField w))
  | 0x12 => checked .DAB w (.mulFF (rdField w) (raField w) (rbField w))
  | 0x13 => checked .DAB w (.divFF (rdField w) (raField w) (rbField w))
  | 0x14 => checked .DAB w (.addFI (rdField w) (raField w) (rbField w))
  | 0x15 => checked .DAB w (.subFI (rdField w) (raField w) (rbField w))
  | 0x16 => checked .DAB w (.mulFI (rdField w) (raField w) (rbField w))
  | 0x17 => checked .DAB w (.divFI (rdField w) (raField w) (rbField w))
  | 0x18 => checked .DAB w (.subIF (rdField w) (raField w) (rbField w))
  | 0x19 => checked .DAB w (.divIF (rdField w) (raField w) (rbField w))
  | 0x20 => checked .DAB w (.ceqFF (rdField w) (raField w) (rbField w))
  | 0x21 => checked .DAB w (.cneFF (rdField w) (raField w) (rbField w))
  | 0x22 => checked .DAB w (.cltFF (rdField w) (raField w) (rbField w))
  | 0x23 => checked .DAB w (.cgtFF (rdField w) (raField w) (rbField w))
  | 0x24 => checked .DAB w (.cleFF (rdField w) (raField w) (rbField w))
  | 0x25 => checked .DAB w (.cgeFF (rdField w) (raField w) (rbField w))
  | 0x28 => checked .DAB w (.ceqFI (rdField w) (raField w) (rbField w))
  | 0x29 => checked .DAB w (.cneFI (rdField w) (raField w) (rbField w))
  | 0x2A => checked .DAB w (.cltFI (rdField w) (raField w) (rbField w))
  | 0x2B => checked .DAB w (.cgtFI (rdField w) (raField w) (rbField w))
  | 0x2C => checked .DAB w (.cleFI (rdField w) (raField w) (rbField w))
  | 0x2D => checked .DAB w (.cgeFI (rdField w) (raField w) (rbField w))
  | _ => .error .reservedOpcode

/-- The fixed-fixed comparison of a condition. -/
def cmpFF : Cond → Reg → Reg → Reg → Instr
  | .eq => .ceqFF
  | .ne => .cneFF
  | .lt => .cltFF
  | .gt => .cgtFF
  | .le => .cleFF
  | .ge => .cgeFF

/-- The fixed-integer comparison of a condition. -/
def cmpFI : Cond → Reg → Reg → Reg → Instr
  | .eq => .ceqFI
  | .ne => .cneFI
  | .lt => .cltFI
  | .gt => .cgtFI
  | .le => .cleFI
  | .ge => .cgeFI

/-- The condition of `opcode[2:0]`; the codes 6 and 7 are reserved (R54). -/
def condOfCode (k : BitVec 3) : Option Cond :=
  match k.toNat with
  | 0 => some .eq
  | 1 => some .ne
  | 2 => some .lt
  | 3 => some .gt
  | 4 => some .le
  | 5 => some .ge
  | _ => none

/-- The decoder of the opcodes `0x20 .. 0x2F` by their structure: `opcode[2:0]` is the condition and `opcode[3:3]`
the form, 0 for FF and 1 for FI (R54). -/
def decodeComparison (w : OpWord) : Except DecodeReject Instr :=
  match condOfCode (w.extractLsb' 24 3) with
  | none => .error .reservedOpcode
  | some k =>
    let op := if w.extractLsb' 27 1 = 1#1 then cmpFI k else cmpFF k
    checked .DAB w (op (rdField w) (raField w) (rbField w))

/-- A register number as its 4-bit field (R52). -/
def regBits (r : Reg) : BitVec 4 := BitVec.ofFin r

/-- The fields of R50 put side by side, `z = 0` in the low twelve bits (R63). -/
def packWord (opcode : BitVec 8) (rd ra rb : Reg) : OpWord :=
  opcode ++ regBits rd ++ regBits ra ++ regBits rb ++ 0#12

/-- The opcode of an instruction (R53). -/
def Instr.opcode : Instr → BitVec 8
  | .new .. => 0x01#8
  | .mov .. => 0x02#8
  | .fromInt .. => 0x03#8
  | .fromPair .. => 0x04#8
  | .toInt .. => 0x05#8
  | .addFF .. => 0x10#8
  | .subFF .. => 0x11#8
  | .mulFF .. => 0x12#8
  | .divFF .. => 0x13#8
  | .addFI .. => 0x14#8
  | .subFI .. => 0x15#8
  | .mulFI .. => 0x16#8
  | .divFI .. => 0x17#8
  | .subIF .. => 0x18#8
  | .divIF .. => 0x19#8
  | .ceqFF .. => 0x20#8
  | .cneFF .. => 0x21#8
  | .cltFF .. => 0x22#8
  | .cgtFF .. => 0x23#8
  | .cleFF .. => 0x24#8
  | .cgeFF .. => 0x25#8
  | .ceqFI .. => 0x28#8
  | .cneFI .. => 0x29#8
  | .cltFI .. => 0x2A#8
  | .cgtFI .. => 0x2B#8
  | .cleFI .. => 0x2C#8
  | .cgeFI .. => 0x2D#8

/-- The format of an instruction (R53). -/
def Instr.format : Instr → Format
  | .new .. => .D
  | .mov .. | .fromInt .. | .toInt .. => .DA
  | .fromPair ..
  | .addFF .. | .subFF .. | .mulFF .. | .divFF ..
  | .addFI .. | .subFI .. | .mulFI .. | .divFI .. | .subIF .. | .divIF ..
  | .ceqFF .. | .cneFF .. | .cltFF .. | .cgtFF .. | .cleFF .. | .cgeFF ..
  | .ceqFI .. | .cneFI .. | .cltFI .. | .cgtFI .. | .cleFI .. | .cgeFI .. => .DAB

/-- The word of an instruction (R63): the opcode and the registers the format uses; a field it does not use is 0. -/
def encode (i : Instr) : OpWord :=
  match i.sources with
  | [] => packWord i.opcode i.dest 0 0
  | [ra] => packWord i.opcode i.dest ra 0
  | ra :: rb :: _ => packWord i.opcode i.dest ra rb

/-- The mask of a format (R51): the bits that the opcode and the must-be-zero fields fix. -/
def Format.mask : Format → OpWord
  | .D => 0xFF0FFFFF#32
  | .DA => 0xFF00FFFF#32
  | .DAB => 0xFF000FFF#32

/-- The opcode map of R53 as data: opcode and format of each of the 27 rows, in the table's order. -/
def opcodeRows : List (BitVec 8 × Format) :=
  [(0x01#8, .D), (0x02#8, .DA), (0x03#8, .DA), (0x04#8, .DAB), (0x05#8, .DA),
   (0x10#8, .DAB), (0x11#8, .DAB), (0x12#8, .DAB), (0x13#8, .DAB), (0x14#8, .DAB),
   (0x15#8, .DAB), (0x16#8, .DAB), (0x17#8, .DAB), (0x18#8, .DAB), (0x19#8, .DAB),
   (0x20#8, .DAB), (0x21#8, .DAB), (0x22#8, .DAB), (0x23#8, .DAB), (0x24#8, .DAB), (0x25#8, .DAB),
   (0x28#8, .DAB), (0x29#8, .DAB), (0x2A#8, .DAB), (0x2B#8, .DAB), (0x2C#8, .DAB), (0x2D#8, .DAB)]

/-- A word belongs to a row: under the format's mask it is `opcode << 24` (R51). -/
def rowMatches (row : BitVec 8 × Format) (w : OpWord) : Bool :=
  w &&& row.2.mask == row.1 ++ 0#24

/-- The little-endian bytes of an `n`-byte pattern: byte `k` holds bits `[8k+7:8k]` (R44). -/
def toBytes {w : Nat} (n : Nat) (v : BitVec w) : List Byte :=
  (List.range n).map (fun k => v.extractLsb' (8 * k) 8)

/-- The `w`-bit pattern of a little-endian byte image (R44). -/
def ofBytes (w : Nat) (bs : List Byte) : BitVec w :=
  BitVec.ofNat w (bs.foldr (fun b acc => b.toNat + 256 * acc) 0)

/-- The four bytes of an operation word, the first at the lowest place (R44). -/
def bytesOfWord (w : OpWord) : List Byte := toBytes 4 w

/-- The decoder on a byte image: four bytes are a word, little-endian (R44), decoded by R56. It answers the instruction
and the rest of the image. DESIGN CHOICE: the first four bytes are the first word (assumption 14), and an image that ends
inside a word is rejected (assumption 15). -/
def decodeBytes : List Byte → Except DecodeReject (Instr × List Byte)
  | b0 :: b1 :: b2 :: b3 :: rest => (decode (ofBytes 32 [b0, b1, b2, b3])).map (fun i => (i, rest))
  | _ => .error .notAWord

/-- The instruction this decoder reads from the `nbits` bits `w`, numbered as spec/opcode_table.json numbers them: the
word is laid out as the four bytes of its image (R44) and decoded. Every row of the table has 32 bits, so bits above
`nbits` are 0. -/
def decodeTableWord (nbits w : Nat) : Option Instr :=
  match decodeBytes (bytesOfWord (BitVec.ofNat 32 (w % 2 ^ nbits))) with
  | .ok (i, _) => some i
  | .error _ => none

end Sys2Proof
end

