-- ==== Sys2Proof/Machine/State.lean ====
section
/-! DEFINITION. The state of one instance (10_state.md), as plain data. A `State` is the configuration of the instance
and its block. The block is written over the width alone, so that everything the machine does is a function on
`Block W` for one fixed `W`, and no cast between widths appears anywhere. -/

namespace Sys2Proof.Machine

/-- The run state RS (R22). -/
inductive RunState where
  | idle
  | run
  | done
  | fault
  deriving DecidableEq, Repr

/-- The four fault causes (R160). -/
inductive Cause where
  | illegalInstruction
  | uninitRead
  | divZero
  | divOverflow
  deriving DecidableEq, Repr

/-- Everything the spec gives the block of width `w` (10_state.md section 6, and the program store of R41).

A register is `none` when its unwritten mark is set: the spec's own state UNDEF, "the register then holds no value"
(R16, R19). FCAUSE is kept as its CAUSE field, bits [2:0]; bits [31:3] are hardwired 0 and are supplied by the one
operation that reads the register (R23). DESIGN CHOICE (assumption 13). -/
structure Block (w : Nat) where
  program : List OpWord
  regs : Vector (Option (BitVec w)) 16
  pc : BitVec 32
  rs : RunState
  fcause : BitVec 3
  fpc : BitVec 32
  fword : BitVec 32
  deriving DecidableEq, Repr

/-- One instance: its configuration, which is the whole content of CFG (R24) and never changes (R1), and its block. -/
structure State where
  cfg : Config
  block : Block cfg.W
  deriving DecidableEq, Repr

/-- Why a step answers a fault. -/
inductive Fault where
  /-- Raised by `step` in run state FAULT, with the contents of FCAUSE, FPC and FWORD: the block executes nothing more
  until reset (R167: "A model treats a run in `FAULT` as a fault outcome, never as a normal end"). Fault ENTRY is a
  next state; this is the stop after it. Safe: the spec says the block stops here. -/
  | stopped (fcause fpc fword : BitVec 32)
  /-- Raised by `step` in run state RUN when `pc` lies beyond the program's end, which R21 says no run reaches: there is
  no word to fetch. Safe: the model stops. -/
  | noProgramWord
  deriving DecidableEq, Repr

/-- Why an instruction has no meaning. -/
inductive Refusal where
  /-- Raised by an arm of `exec` for an instruction that has no meaning yet. Safe. No arm raises it: all 27 instructions
  have their meaning. -/
  | notModelled (mnemonic : String)
  deriving DecidableEq, Repr

/-- The outcome of one step of this machine. -/
abbrev Result := Host.Outcome State Fault Refusal

/-- The state an instance of configuration `c` is in after its first reset (R180), before the host has loaded a
program: no register holds a value, `pc = 0`, RS = IDLE, and the status registers are 0. DESIGN CHOICE (assumption 2):
the program store is empty, since no words have been loaded. -/
def State.resetOf (c : Config) : State where
  cfg := c
  block :=
    { program := []
      regs := Vector.replicate 16 none
      pc := 0#32
      rs := .idle
      fcause := 0#3
      fpc := 0#32
      fword := 0#32 }

/-- The machine right after reset. DESIGN CHOICE (assumption 1): the instance is elaborated as `fixed<32,15>`, the
source's own concrete scenario (95_test_vectors.md E7); every other configuration is `State.resetOf`. -/
def State.reset : State := .resetOf ⟨.w32, ⟨15, by decide⟩⟩

end Sys2Proof.Machine
end

