-- ==== Sys2Proof/Machine/Prim.lean ====
section
/-! DEFINITION. The pseudocode primitives of 00_scope.md section 4. Arithmetic is on unbounded integers; a conversion
to a width is always explicit. -/

namespace Sys2Proof.Machine

/-- `uint(v)`: the unsigned value of a pattern. -/
abbrev uint {n : Nat} (v : BitVec n) : Nat := v.toNat

/-- `sint(v)`: the two's-complement value of a pattern. -/
abbrev sint {n : Nat} (v : BitVec n) : Int := v.toInt

/-- `wrap_N(z)`: the `N`-bit pattern congruent to `z` modulo `2^N`. -/
abbrev wrap (n : Nat) (z : Int) : BitVec n := BitVec.ofInt n z

/-- `sint_N(z)`: the value `z` has after wrapping into `N` signed bits. -/
def sintN (n : Nat) (z : Int) : Int := sint (wrap n z)

/-- `sext_N(v)`: sign extension or truncation to `N` bits. -/
def sext (n : Nat) {m : Nat} (v : BitVec m) : BitVec n := wrap n (sint v)

/-- `zext_N(v)`: zero extension or truncation to `N` bits. -/
def zext (n : Nat) {m : Nat} (v : BitVec m) : BitVec n := wrap n (uint v)

/-- `tdiv(a, b)`: the integer quotient truncated toward zero, for `b ≠ 0`. -/
def tdiv (a b : Int) : Int := a.sign * b.sign * ((a.natAbs / b.natAbs : Nat) : Int)

/-- `asr(z, s)`: arithmetic right shift, `floor(z / 2^s)`; `Int` division by a positive divisor is the floor. -/
def asr (z : Int) (s : Nat) : Int := z / 2 ^ s

/-- `ndigits` with at most `fuel` digits; a number has no more digits than its own value plus one. -/
def ndigitsUpTo : Nat → Nat → Nat
  | 0, _ => 0
  | fuel + 1, d => if d < 10 then 1 else ndigitsUpTo fuel (d / 10) + 1

/-- `ndigits(d)`: the number of decimal digits of `d`, computed exactly on integers (R72; decision D11). The spec
defines it for `d >= 1` only; no rule applies it to 0 except through `max(1, ndigits(2^P - 1) - 1)` with `P >= 1`. -/
def ndigits (d : Nat) : Nat := ndigitsUpTo (d + 1) d

end Sys2Proof.Machine
end

