-- ==== Sys2Proof/Machine/Traits.lean ====
section
/-! DEFINITION. The width and precision trait table (10_state.md R14, R15), and elaboration, which is the only place
where a width or a precision is chosen (R1 to R3). -/

namespace Sys2Proof

/-- `Wider(W)`: the next larger supported width, or 64 itself at 64 (R14). -/
def Width.wider : Width → Width
  | .w8 => .w16
  | .w16 => .w32
  | .w32 => .w64
  | .w64 => .w64

/-- `Narrower(W)`: the next smaller supported width, or 8 itself at 8 (R14). No operation reads it (R15). -/
def Width.narrower : Width → Width
  | .w8 => .w8
  | .w16 => .w8
  | .w32 => .w16
  | .w64 => .w32

/-- The least value of `SignedOf(W)`, `-2^(W-1)` (R14). -/
def leastSigned (n : Nat) : Int := -2 ^ (n - 1)

/-- The greatest value of `SignedOf(W)`, `2^(W-1) - 1` (R14). -/
def greatestSigned (n : Nat) : Int := 2 ^ (n - 1) - 1

/-- The greatest value of `UnsignedOf(W)`, `2^W - 1` (R14). -/
def greatestUnsigned (n : Nat) : Nat := 2 ^ n - 1

/-- `WW = Wider(W)`, the accumulator width of an instance, in bits (R4, R15). -/
def Config.WW (c : Config) : Nat := c.width.wider.bits

/-- The supported width of a number of bits, if there is one (R14). -/
def Width.ofBits : Nat → Option Width
  | 8 => some .w8
  | 16 => some .w16
  | 32 => some .w32
  | 64 => some .w64
  | _ => none

/-- Elaboration of `fixed<W,P>`: a configuration, or a refusal (`none`) when the width is unsupported (R2) or the
precision is outside `0 <= P < W` (R3). No supported width is substituted. -/
def Config.elaborate (W P : Nat) : Option Config :=
  match Width.ofBits W with
  | none => none
  | some width => if h : P < width.bits then some ⟨width, ⟨P, h⟩⟩ else none

/-- The configuration register CFG (R24): bits [6:0] are `W`, bits [13:8] are `P`, every other bit reads 0. It is
hardwired from the parameters, so it is a view of them and not stored again. -/
def Config.register (c : Config) : BitVec 32 := BitVec.ofNat 32 (c.W + c.P * 2 ^ 8)

end Sys2Proof
end

