-- ==== Sys2Proof/Machine/Ops.lean ====
section
/-! DEFINITION. The named operations on a block: reading and writing a register (10_state.md R16 to R20), advancing the
pc (R21), reading the status registers (R23), taking a fault (60_exceptions.md R166), reset (70_reset_and_hazards.md
R180), start (R182), fetch and the end of a run (R183). There is no return from a fault: only reset leaves FAULT
(R167). -/

namespace Sys2Proof.Machine

variable {w : Nat}

/-- `x[i]`: the pattern of a register, or `none` if its unwritten mark is set (R19). -/
def Block.readReg (b : Block w) (r : Reg) : Option (BitVec w) := b.regs[r.val]

/-- `x[i] <- v`: writes all `W` bits and clears the unwritten mark (R19, R20). -/
def Block.writeReg (r : Reg) (v : BitVec w) (b : Block w) : Block w :=
  { b with regs := b.regs.set r.val (some v) r.isLt }

/-- `x[i] <- UNDEF`: sets the unwritten mark; the register then holds no value (R19). -/
def Block.markUnwritten (r : Reg) (b : Block w) : Block w :=
  { b with regs := b.regs.set r.val none r.isLt }

/-- `pc <- pc + 1`, the only update of the pc by an instruction (R21). -/
def Block.advance (b : Block w) : Block w := { b with pc := b.pc + 1#32 }

/-- An instruction completes with the value `v` for `rd`: it writes `rd` and advances the pc, nothing else (R20, R21,
R46). -/
def Block.complete (rd : Reg) (v : BitVec w) (b : Block w) : Block w := (b.writeReg rd v).advance

/-- The code of a fault cause (R160). -/
def Cause.code : Cause → BitVec 3
  | .illegalInstruction => 1#3
  | .uninitRead => 2#3
  | .divZero => 3#3
  | .divOverflow => 4#3

/-- The word at `pc`, if the program has one there (R41). -/
def Block.wordAtPc (b : Block w) : Option OpWord := b.program[b.pc.toNat]?

/-- Fault entry (R166): FCAUSE, FPC and FWORD record the cause, the pc and the word at pc, and RS becomes FAULT. No
register is written and the pc is not advanced. DESIGN CHOICE (assumption 5): where the program has no word at pc,
which no step reaches, FWORD keeps its contents. -/
def Block.takeFault (c : Cause) (b : Block w) : Block w :=
  { b with rs := .fault, fcause := c.code, fpc := b.pc, fword := b.wordAtPc.getD b.fword }

/-- The end of an instruction whose value step either gives a value or raises a fault (R46, R166). -/
def Block.settle (rd : Reg) (r : Except Cause (BitVec w)) (b : Block w) : Block w :=
  match r with
  | .ok v => b.complete rd v
  | .error c => b.takeFault c

/-- FCAUSE as the host reads it: the CAUSE field in bits [2:0], bits [31:3] hardwired 0 (R23). -/
def Block.readFcause (b : Block w) : BitVec 32 := zext 32 b.fcause

/-- FPC as the host reads it (R23). -/
def Block.readFpc (b : Block w) : BitVec 32 := b.fpc

/-- FWORD as the host reads it (R23). -/
def Block.readFword (b : Block w) : BitVec 32 := b.fword

/-- Reset (R180): no register holds a value, `pc = 0`, RS = IDLE and the status registers are 0. The program store keeps
its words. -/
def Block.applyReset (b : Block w) : Block w :=
  { program := b.program
    regs := Vector.replicate 16 none
    pc := 0#32
    rs := .idle
    fcause := 0#3
    fpc := 0#32
    fword := 0#32 }

/-- Start (R182): taken only in IDLE, it sets RS = RUN with `pc = 0`; in any other state it does nothing. -/
def Block.applyStart (b : Block w) : Block w :=
  match b.rs with
  | .idle => { b with rs := .run, pc := 0#32 }
  | .run | .done | .fault => b

/-- What the block finds when it looks for its next word (R183). -/
inductive Fetched where
  /-- `pc = L`: the program has ended. -/
  | endOfProgram
  /-- The word at `pc`. -/
  | word (v : OpWord)
  /-- `pc > L`: there is no such word; R21 says that no run gets here. -/
  | beyond
  deriving DecidableEq, Repr

/-- Fetch (R41, R183): the block reads only word `pc`. -/
def Block.fetch (b : Block w) : Fetched :=
  if b.pc.toNat = b.program.length then .endOfProgram
  else
    match b.wordAtPc with
    | some v => .word v
    | none => .beyond

/-- The normal end of a run: RS becomes DONE (R183). -/
def Block.endRun (b : Block w) : Block w := { b with rs := .done }

/-- The step of a block in IDLE or DONE: it executes nothing and every piece of state survives (R22, R176). -/
def Block.rest (b : Block w) : Block w := b

/-- The stop of a block in FAULT, with the three status registers as the host reads them (R167). -/
def Block.stop (b : Block w) : Fault := .stopped b.readFcause b.readFpc b.readFword

/-- The state after a change of its block; the configuration never changes (R1). -/
def State.mapBlock (f : (c : Config) → Block c.W → Block c.W) (s : State) : State :=
  { s with block := f s.cfg s.block }

/-- The outcome of an instruction, which always is a next state: it completes, or it takes a fault (R46, R166). -/
def State.perform (f : (c : Config) → Block c.W → Block c.W) (s : State) : Result :=
  .next (s.mapBlock f)

end Sys2Proof.Machine
end

