-- ==== Sys2Proof/Machine/Operands.lean ====
section
/-! DEFINITION. The operand forms. Every operand is a register (30_encoding.md R52); the opcode gives its interpretation
(10_state.md R17): a fixed value, a plain signed integer, or unsigned fraction digits. Reads happen in the order `ra`,
then `rb`, before anything is written, and an unwritten register raises `UNINIT_READ` (60_exceptions.md R162, R165). -/

namespace Sys2Proof.Machine

variable {w : Nat}

/-- A fixed operand (`F`): the integer `sint` of the pattern, in ulps (R10, R17). -/
def asFixed (v : BitVec w) : Int := sint v

/-- A plain-integer operand (`I`): `sint` of `SignedOf(W)` (R17, R18). -/
def asPlain (v : BitVec w) : Int := sint v

/-- A fraction-digits operand (`U`): `uint` of `UnsignedOf(W)` (R17, R18). -/
def asDigits (v : BitVec w) : Nat := uint v

/-- Formats with `ra`: read `ra`, and go on with its pattern or raise `UNINIT_READ` (R162). -/
def Block.withRa (ra : Reg) (k : BitVec w → Block w → Block w) (b : Block w) : Block w :=
  match b.readReg ra with
  | none => b.takeFault .uninitRead
  | some a => k a b

/-- Format DAB: read `ra`, then `rb`, and go on with both patterns or raise `UNINIT_READ` (R162, R165). -/
def Block.withRaRb (ra rb : Reg) (k : BitVec w → BitVec w → Block w → Block w) (b : Block w) : Block w :=
  b.withRa ra (fun va => Block.withRa rb (fun vb => k va vb))

end Sys2Proof.Machine
end

