-- ==== Sys2Proof/Machine/ArithFF.lean ====
section
/-! DEFINITION. Fixed-fixed arithmetic: ADD.FF, SUB.FF, MUL.FF and DIV.FF (41_arith_ff.md R103 to R106), with the laws
of wrap, widening and rounding (R100 to R102). -/

namespace Sys2Proof.Machine

/-- `wrap_W(a + b)` (R103). -/
def addValue (c : Config) (a b : Int) : BitVec c.W := wrap c.W (a + b)

/-- `wrap_W(a - b)` (R104). -/
def subValue (c : Config) (a b : Int) : BitVec c.W := wrap c.W (a - b)

/-- The product of two fixed values: formed in `WW` bits, shifted right by `P` arithmetically, truncated to `W` bits
(R101, R102, R105). -/
def mulValue (c : Config) (a b : Int) : BitVec c.W :=
  wrap c.W (asr (sintN c.WW (a * b)) c.P)

/-- The quotient of two fixed values (R106): the dividend is widened to `WW` bits and shifted left by `P` there, then
divided toward zero (R102) and truncated to `W` bits. A zero divisor raises `DIV_ZERO` (R163); the least `WW`-bit value
over -1 raises `DIV_OVERFLOW` (R164). -/
def divValue (c : Config) (a b : Int) : Except Cause (BitVec c.W) :=
  if b = 0 then .error .divZero
  else
    let n := sintN c.WW (a * 2 ^ c.P)
    if n = leastSigned c.WW ∧ b = -1 then .error .divOverflow
    else .ok (wrap c.W (tdiv n b))

/-- ADD.FF (R103). -/
def execAddFF (rd ra rb : Reg) (s : State) : Result :=
  s.perform fun c => Block.withRaRb ra rb fun a b =>
    Block.complete rd (addValue c (asFixed a) (asFixed b))

/-- SUB.FF (R104). -/
def execSubFF (rd ra rb : Reg) (s : State) : Result :=
  s.perform fun c => Block.withRaRb ra rb fun a b =>
    Block.complete rd (subValue c (asFixed a) (asFixed b))

/-- MUL.FF (R105). -/
def execMulFF (rd ra rb : Reg) (s : State) : Result :=
  s.perform fun c => Block.withRaRb ra rb fun a b =>
    Block.complete rd (mulValue c (asFixed a) (asFixed b))

/-- DIV.FF (R106). -/
def execDivFF (rd ra rb : Reg) (s : State) : Result :=
  s.perform fun c => Block.withRaRb ra rb fun a b =>
    Block.settle rd (divValue c (asFixed a) (asFixed b))

end Sys2Proof.Machine
end

