-- ==== Sys2Proof/Machine/Encoder.lean ====
section
/-! DEFINITION. The decimal-fraction encoder `Enc_P` (40_construct.md R70 to R75), exactly on unbounded integers, with
the constants that 90_conflicts.md C1 settles. -/

namespace Sys2Proof.Machine

/-- The digit budget `N_P = max(1, ndigits(2^P - 1) - 1)`, for `P >= 1` (R72). -/
def digitBudget (P : Nat) : Nat := max 1 (ndigits (2 ^ P - 1) - 1)

/-- Normalization of `d >= 1` to `N` digits: excess low-order digits are dropped, missing ones are padded with zeros
(R73). -/
def normalise (N d : Nat) : Nat :=
  let k := ndigits d
  if k > N then d / 10 ^ (k - N)
  else if k < N then d * 10 ^ (N - k)
  else d

/-- `Enc_P(d)`: 0 when `P = 0` or `d = 0` (R71), else `floor(d' * 2^P / 10^N)` (R74). -/
def enc (P d : Nat) : Nat :=
  if P = 0 ∨ d = 0 then 0
  else
    let N := digitBudget P
    normalise N d * 2 ^ P / 10 ^ N

end Sys2Proof.Machine
end

