-- ==== Sys2Proof/Machine/Construct.lean ====
section
/-! DEFINITION. Construction and conversion: NEW, MOV, FROMINT, FROMPAIR and TOINT (40_construct.md R80 to R84). -/

namespace Sys2Proof.Machine

/-- The upscale of an integer into a fixed value: `wrap_W(n * 2^P)` (R82). -/
def upscale (c : Config) (n : Int) : BitVec c.W := wrap c.W (n * 2 ^ c.P)

/-- The value of FROMPAIR: `wrap_W(i * 2^P + Enc(P, d))`; the fraction is added as a magnitude whatever the sign of the
integer part (R83, 90_conflicts.md C6). -/
def pairValue (c : Config) (i : Int) (d : Nat) : BitVec c.W := wrap c.W (i * 2 ^ c.P + enc c.P d)

/-- The value of TOINT: `floor(a / 2^P)` (R84, 90_conflicts.md C8). -/
def toIntValue (c : Config) (a : Int) : BitVec c.W := wrap c.W (asr a c.P)

/-- NEW: `x[rd] <- UNDEF` (R80). -/
def execNew (rd : Reg) (s : State) : Result :=
  s.perform fun _ b => (b.markUnwritten rd).advance

/-- MOV: `x[rd] <- x[ra]`, bits unchanged (R81). -/
def execMov (rd ra : Reg) (s : State) : Result :=
  s.perform fun _ => Block.withRa ra fun v => Block.complete rd v

/-- FROMINT: the upscale of the plain integer in `ra` (R82). -/
def execFromInt (rd ra : Reg) (s : State) : Result :=
  s.perform fun c => Block.withRa ra fun n => Block.complete rd (upscale c (asPlain n))

/-- FROMPAIR: the integer part in `ra` and the fraction digits in `rb` (R83). -/
def execFromPair (rd ra rb : Reg) (s : State) : Result :=
  s.perform fun c => Block.withRaRb ra rb fun i d =>
    Block.complete rd (pairValue c (asPlain i) (asDigits d))

/-- TOINT: the integer part of the fixed value in `ra`, rounded toward negative infinity (R84). -/
def execToInt (rd ra : Reg) (s : State) : Result :=
  s.perform fun c => Block.withRa ra fun a => Block.complete rd (toIntValue c (asFixed a))

end Sys2Proof.Machine
end

