-- ==== Sys2Proof/Machine/ArithMixed.lean ====
section
/-! DEFINITION. Mixed fixed-integer arithmetic: ADD.FI, SUB.FI, MUL.FI, DIV.FI, SUB.IF and DIV.IF (42_arith_mixed.md R121
to R126). The plain integer has a different meaning in each form, and the forms are kept inconsistent with one another
(R120, R127). -/

namespace Sys2Proof.Machine

/-- `wrap_W(a * r)`: the raw pattern times the integer, no widening step and no shift (R123). -/
def scaleValue (c : Config) (a r : Int) : BitVec c.W := wrap c.W (a * r)

/-- The raw pattern divided by the integer, toward zero, no shift (R124). A zero divisor raises `DIV_ZERO` (R163); the
least `W`-bit value over -1 raises `DIV_OVERFLOW` at every `W` (R164). -/
def unscaleValue (c : Config) (a r : Int) : Except Cause (BitVec c.W) :=
  if r = 0 then .error .divZero
  else if a = leastSigned c.W ∧ r = -1 then .error .divOverflow
  else .ok (wrap c.W (tdiv a r))

/-- The temporary fixed value of the IF forms: FROMINT of the integer, read back as an integer (R125, R126). -/
def promoted (c : Config) (r : Int) : Int := asFixed (upscale c r)

/-- ADD.FI: the integer counts ulps, it is not shifted by `P` (R121). -/
def execAddFI (rd ra rb : Reg) (s : State) : Result :=
  s.perform fun c => Block.withRaRb ra rb fun a r =>
    Block.complete rd (addValue c (asFixed a) (asPlain r))

/-- SUB.FI: the integer counts ulps, it is not shifted by `P` (R122). -/
def execSubFI (rd ra rb : Reg) (s : State) : Result :=
  s.perform fun c => Block.withRaRb ra rb fun a r =>
    Block.complete rd (subValue c (asFixed a) (asPlain r))

/-- MUL.FI: the integer is a factor of the raw pattern (R123). -/
def execMulFI (rd ra rb : Reg) (s : State) : Result :=
  s.perform fun c => Block.withRaRb ra rb fun a r =>
    Block.complete rd (scaleValue c (asFixed a) (asPlain r))

/-- DIV.FI: the integer is a divisor of the raw pattern (R124). -/
def execDivFI (rd ra rb : Reg) (s : State) : Result :=
  s.perform fun c => Block.withRaRb ra rb fun a r =>
    Block.settle rd (unscaleValue c (asFixed a) (asPlain r))

/-- SUB.IF: the integer in `ra` is upscaled, then SUB.FF (R125). -/
def execSubIF (rd ra rb : Reg) (s : State) : Result :=
  s.perform fun c => Block.withRaRb ra rb fun r b =>
    Block.complete rd (subValue c (promoted c (asPlain r)) (asFixed b))

/-- DIV.IF: the integer in `ra` is upscaled, then DIV.FF (R126). -/
def execDivIF (rd ra rb : Reg) (s : State) : Result :=
  s.perform fun c => Block.withRaRb ra rb fun r b =>
    Block.settle rd (divValue c (promoted c (asPlain r)) (asFixed b))

end Sys2Proof.Machine
end

