-- ==== Sys2Proof/Machine/Flags.lean ====
section
/-! DEFINITION. The block has no condition flags, condition codes or predicates (10_state.md R25): no instruction sets
or reads one. What other machines leave in flags is here the truth of a condition, written to a value register as the
`W`-bit integer 1 or 0 (43_compare.md R140). -/

namespace Sys2Proof.Machine

/-- The six conditions on integers (R54, R141, R142). -/
def condHolds : Cond → Int → Int → Bool
  | .eq, A, B => A == B
  | .ne, A, B => A != B
  | .lt, A, B => decide (A < B)
  | .gt, A, B => decide (A > B)
  | .le, A, B => decide (A ≤ B)
  | .ge, A, B => decide (A ≥ B)

/-- The result of a comparison: `wrap_W(1)` when it holds, `wrap_W(0)` when it does not (R140). -/
def boolPattern (w : Nat) (t : Bool) : BitVec w := wrap w (if t then 1 else 0)

end Sys2Proof.Machine
end

