-- ==== Sys2Proof/Machine/Compare.lean ====
section
/-! DEFINITION. The twelve comparisons (43_compare.md R140 to R154). -/

namespace Sys2Proof.Machine

/-- A fixed-fixed comparison: both patterns as `W`-bit signed integers (R141), the result of R140. -/
def compareFF (c : Config) (k : Cond) (a b : Int) : BitVec c.W := boolPattern c.W (condHolds k a b)

/-- The integer operand of a fixed-integer comparison: widened to `WW` bits and shifted left by `P` there, so that at
`W = 64` it can wrap (R142, R155). -/
def widened (c : Config) (r : Int) : Int := sintN c.WW (r * 2 ^ c.P)

/-- A fixed-integer comparison (R142), the result of R140. -/
def compareFI (c : Config) (k : Cond) (a r : Int) : BitVec c.W :=
  boolPattern c.W (condHolds k a (widened c r))

/-- CEQ.FF (R143). -/
def execCeqFF (rd ra rb : Reg) (s : State) : Result :=
  s.perform fun c => Block.withRaRb ra rb fun a b =>
    Block.complete rd (compareFF c .eq (asFixed a) (asFixed b))

/-- CNE.FF (R144). -/
def execCneFF (rd ra rb : Reg) (s : State) : Result :=
  s.perform fun c => Block.withRaRb ra rb fun a b =>
    Block.complete rd (compareFF c .ne (asFixed a) (asFixed b))

/-- CLT.FF (R145). -/
def execCltFF (rd ra rb : Reg) (s : State) : Result :=
  s.perform fun c => Block.withRaRb ra rb fun a b =>
    Block.complete rd (compareFF c .lt (asFixed a) (asFixed b))

/-- CGT.FF (R146). -/
def execCgtFF (rd ra rb : Reg) (s : State) : Result :=
  s.perform fun c => Block.withRaRb ra rb fun a b =>
    Block.complete rd (compareFF c .gt (asFixed a) (asFixed b))

/-- CLE.FF (R147). -/
def execCleFF (rd ra rb : Reg) (s : State) : Result :=
  s.perform fun c => Block.withRaRb ra rb fun a b =>
    Block.complete rd (compareFF c .le (asFixed a) (asFixed b))

/-- CGE.FF (R148). -/
def execCgeFF (rd ra rb : Reg) (s : State) : Result :=
  s.perform fun c => Block.withRaRb ra rb fun a b =>
    Block.complete rd (compareFF c .ge (asFixed a) (asFixed b))

/-- CEQ.FI (R149). -/
def execCeqFI (rd ra rb : Reg) (s : State) : Result :=
  s.perform fun c => Block.withRaRb ra rb fun a r =>
    Block.complete rd (compareFI c .eq (asFixed a) (asPlain r))

/-- CNE.FI (R150). -/
def execCneFI (rd ra rb : Reg) (s : State) : Result :=
  s.perform fun c => Block.withRaRb ra rb fun a r =>
    Block.complete rd (compareFI c .ne (asFixed a) (asPlain r))

/-- CLT.FI (R151). -/
def execCltFI (rd ra rb : Reg) (s : State) : Result :=
  s.perform fun c => Block.withRaRb ra rb fun a r =>
    Block.complete rd (compareFI c .lt (asFixed a) (asPlain r))

/-- CGT.FI (R152). -/
def execCgtFI (rd ra rb : Reg) (s : State) : Result :=
  s.perform fun c => Block.withRaRb ra rb fun a r =>
    Block.complete rd (compareFI c .gt (asFixed a) (asPlain r))

/-- CLE.FI (R153). -/
def execCleFI (rd ra rb : Reg) (s : State) : Result :=
  s.perform fun c => Block.withRaRb ra rb fun a r =>
    Block.complete rd (compareFI c .le (asFixed a) (asPlain r))

/-- CGE.FI (R154). -/
def execCgeFI (rd ra rb : Reg) (s : State) : Result :=
  s.perform fun c => Block.withRaRb ra rb fun a r =>
    Block.complete rd (compareFI c .ge (asFixed a) (asPlain r))

end Sys2Proof.Machine
end

