-- ==== Sys2Proof/Machine/Dispatch.lean ====
section
/-! DEFINITION. Which meaning each instruction has: one arm per constructor of `Instr`, in the order of the opcode map
(30_encoding.md R53). -/

namespace Sys2Proof.Machine

def exec (i : Instr) (s : State) : Host.Outcome State Fault Refusal :=
  match i with
  | .new rd => Sys2Proof.Machine.execNew rd s
  | .mov rd ra => Sys2Proof.Machine.execMov rd ra s
  | .fromInt rd ra => Sys2Proof.Machine.execFromInt rd ra s
  | .fromPair rd ra rb => Sys2Proof.Machine.execFromPair rd ra rb s
  | .toInt rd ra => Sys2Proof.Machine.execToInt rd ra s
  | .addFF rd ra rb => Sys2Proof.Machine.execAddFF rd ra rb s
  | .subFF rd ra rb => Sys2Proof.Machine.execSubFF rd ra rb s
  | .mulFF rd ra rb => Sys2Proof.Machine.execMulFF rd ra rb s
  | .divFF rd ra rb => Sys2Proof.Machine.execDivFF rd ra rb s
  | .addFI rd ra rb => Sys2Proof.Machine.execAddFI rd ra rb s
  | .subFI rd ra rb => Sys2Proof.Machine.execSubFI rd ra rb s
  | .mulFI rd ra rb => Sys2Proof.Machine.execMulFI rd ra rb s
  | .divFI rd ra rb => Sys2Proof.Machine.execDivFI rd ra rb s
  | .subIF rd ra rb => Sys2Proof.Machine.execSubIF rd ra rb s
  | .divIF rd ra rb => Sys2Proof.Machine.execDivIF rd ra rb s
  | .ceqFF rd ra rb => Sys2Proof.Machine.execCeqFF rd ra rb s
  | .cneFF rd ra rb => Sys2Proof.Machine.execCneFF rd ra rb s
  | .cltFF rd ra rb => Sys2Proof.Machine.execCltFF rd ra rb s
  | .cgtFF rd ra rb => Sys2Proof.Machine.execCgtFF rd ra rb s
  | .cleFF rd ra rb => Sys2Proof.Machine.execCleFF rd ra rb s
  | .cgeFF rd ra rb => Sys2Proof.Machine.execCgeFF rd ra rb s
  | .ceqFI rd ra rb => Sys2Proof.Machine.execCeqFI rd ra rb s
  | .cneFI rd ra rb => Sys2Proof.Machine.execCneFI rd ra rb s
  | .cltFI rd ra rb => Sys2Proof.Machine.execCltFI rd ra rb s
  | .cgtFI rd ra rb => Sys2Proof.Machine.execCgtFI rd ra rb s
  | .cleFI rd ra rb => Sys2Proof.Machine.execCleFI rd ra rb s
  | .cgeFI rd ra rb => Sys2Proof.Machine.execCgeFI rd ra rb s

end Sys2Proof.Machine
end

