-- ==== Sys2Proof/Machine/Step.lean ====
section
/-! DEFINITION. One step of the block (70_reset_and_hazards.md R183), and the placing of one word where the next step
fetches it. -/

namespace Sys2Proof.Machine

/-- One step. In RUN it is R183: the normal end at `pc = L`, else the word at `pc` is decoded and executed, and a word
that decode rejects takes the fault `ILLEGAL_INSTRUCTION` (R161). In IDLE and DONE the block executes nothing (R22,
R176); DESIGN CHOICE (assumption 8): the step then answers the same state. DEDUCED (assumption 9): in FAULT the step
answers a fault, since the block has stopped (R167). DESIGN CHOICE (assumption 10): so it does beyond the program. -/
def step (s : State) : Host.Outcome State Fault Refusal :=
  match s.block.rs with
  | .idle => .next (s.mapBlock fun _ => Block.rest)
  | .done => .next (s.mapBlock fun _ => Block.rest)
  | .fault => .fault s.block.stop
  | .run =>
    match s.block.fetch with
    | .endOfProgram => .next (s.mapBlock fun _ => Block.endRun)
    | .beyond => .fault .noProgramWord
    | .word v =>
      match decode v with
      | .ok i => exec i s
      | .error _ => .next (s.mapBlock fun _ => Block.takeFault .illegalInstruction)

/-- A block in RUN whose program has the word `v` at `pc`; a shorter program is first filled up with all-zero words,
and every other word of it is kept. -/
def Block.placeWord {w : Nat} (v : OpWord) (b : Block w) : Block w :=
  let k := b.pc.toNat
  { b with
    rs := .run
    program :=
      b.program.take k ++ List.replicate (k - b.program.length) 0#32 ++ v :: b.program.drop (k + 1) }

/-- `s` with the instruction whose bits are `w` (of `nbits` bits) as the word at `pc`, and RS = RUN, so that the next
step fetches and runs it. DEDUCED (assumption 4): it stands for the host's load and start (R181, R182). -/
def State.withFetchWord (s : State) (nbits w : Nat) : State :=
  s.mapBlock fun _ => Block.placeWord (BitVec.ofNat 32 (w % 2 ^ nbits))

end Sys2Proof.Machine
end

