-- ==== Sys2Proof/Machine/Pseudo.lean ====
section
/-! DEFINITION. The pseudo-instructions of the assembler (30_encoding.md R58 to R61): each is another spelling of one
instruction. -/

namespace Sys2Proof.Machine

/-- The instruction of a compound operation, with three operands (R58). -/
def compoundInstr : CompoundOp → Reg → Reg → Reg → Instr
  | .addFF => .addFF
  | .subFF => .subFF
  | .mulFF => .mulFF
  | .divFF => .divFF
  | .addFI => .addFI
  | .subFI => .subFI
  | .mulFI => .mulFI
  | .divFI => .divFI

/-- The mirrored condition: what `A cond B` becomes when the operands are swapped (R60). -/
def mirror : Cond → Cond
  | .eq => .eq
  | .ne => .ne
  | .lt => .gt
  | .gt => .lt
  | .le => .ge
  | .ge => .le

/-- The one instruction a pseudo-instruction stands for: `OP rd, rb` is `OP rd, rd, rb` (R58); the integer-left forms
are the fixed-left forms with `ra` and `rb` swapped (R59) and, for comparisons, the condition mirrored (R60). -/
def expand : Pseudo → Instr
  | .compound op rd rb => compoundInstr op rd rd rb
  | .addIF rd ra rb => .addFI rd rb ra
  | .mulIF rd ra rb => .mulFI rd rb ra
  | .cmpIF k rd ra rb => cmpFI (mirror k) rd rb ra

end Sys2Proof.Machine
end

