-- ==== Sys2Proof/Machine/Assembler.lean ====
section
/-! DEFINITION. The assembler syntax (30_encoding.md R57 to R61), which is only a spelling of words (R5): one line, one
word. DESIGN CHOICE (assumption 7): where blanks may stand in a line. -/

namespace Sys2Proof.Machine

/-- A blank between the parts of a line. -/
def isBlank (c : Char) : Bool := c == ' ' || c == '\t'

/-- A line without its comment, which starts with `;` (R57). -/
def dropComment (cs : List Char) : List Char := cs.takeWhile (fun c => c != ';')

/-- A text without the blanks at its two ends. -/
def trimBlanks (cs : List Char) : List Char :=
  ((cs.dropWhile isBlank).reverse.dropWhile isBlank).reverse

/-- A text cut at every comma (R57). -/
def splitCommas : List Char → List (List Char)
  | [] => [[]]
  | c :: cs =>
    if c == ',' then [] :: splitCommas cs
    else
      match splitCommas cs with
      | [] => [[c]]
      | t :: ts => (c :: t) :: ts

/-- The value of a decimal digit. -/
def digitOf (c : Char) : Option Nat :=
  if '0' ≤ c ∧ c ≤ '9' then some (c.toNat - '0'.toNat) else none

/-- The number spelled by decimal digits. -/
def numberOf (acc : Nat) : List Char → Option Nat
  | [] => some acc
  | c :: cs =>
    match digitOf c with
    | none => none
    | some n => numberOf (10 * acc + n) cs

/-- The number of a register operand `x0` .. `x15`, written without leading zeros (R57); whether it is at most 15 is
`legalOperands`'s question. -/
def registerNumber : List Char → Option Nat
  | 'x' :: '0' :: [] => some 0
  | 'x' :: '0' :: _ => none
  | 'x' :: c :: cs => numberOf 0 (c :: cs)
  | _ => none

/-- The register operands of a line: separated by commas, each with blanks around it dropped (R57). -/
def operandNumbers (cs : List Char) : Option (List Nat) :=
  if trimBlanks cs = [] then some []
  else (splitCommas cs).mapM (fun t => registerNumber (trimBlanks t))

/-- A register of a number that `legalOperands` has let through. -/
def regOf (n : Nat) : Reg := Fin.ofNat 16 n

/-- Format D takes `rd` (R57). -/
def lineD (f : Reg → Instr) (ns : List Nat) : Option Instr :=
  if legalOperands .D ns then
    match ns with
    | [d] => some (f (regOf d))
    | _ => none
  else none

/-- Format DA takes `rd, ra` (R57). -/
def lineDA (f : Reg → Reg → Instr) (ns : List Nat) : Option Instr :=
  if legalOperands .DA ns then
    match ns with
    | [d, a] => some (f (regOf d) (regOf a))
    | _ => none
  else none

/-- Format DAB takes `rd, ra, rb` (R57). -/
def lineDAB (f : Reg → Reg → Reg → Instr) (ns : List Nat) : Option Instr :=
  if legalOperands .DAB ns then
    match ns with
    | [d, a, b] => some (f (regOf d) (regOf a) (regOf b))
    | _ => none
  else none

/-- The eight instructions with a compound spelling take `rd, ra, rb` or `rd, rb` (R57, R58). -/
def lineCompound (op : CompoundOp) (ns : List Nat) : Option Instr :=
  match lineDA (fun d b => expand (.compound op d b)) ns with
  | some i => some i
  | none => lineDAB (compoundInstr op) ns

/-- A mnemonic of R53, or of a pseudo-instruction (R59, R60), with its operands. -/
def assembleOp (mnemonic : String) (ns : List Nat) : Option Instr :=
  match mnemonic with
  | "NEW" => lineD .new ns
  | "MOV" => lineDA .mov ns
  | "FROMINT" => lineDA .fromInt ns
  | "FROMPAIR" => lineDAB .fromPair ns
  | "TOINT" => lineDA .toInt ns
  | "ADD.FF" => lineCompound .addFF ns
  | "SUB.FF" => lineCompound .subFF ns
  | "MUL.FF" => lineCompound .mulFF ns
  | "DIV.FF" => lineCompound .divFF ns
  | "ADD.FI" => lineCompound .addFI ns
  | "SUB.FI" => lineCompound .subFI ns
  | "MUL.FI" => lineCompound .mulFI ns
  | "DIV.FI" => lineCompound .divFI ns
  | "SUB.IF" => lineDAB .subIF ns
  | "DIV.IF" => lineDAB .divIF ns
  | "CEQ.FF" => lineDAB .ceqFF ns
  | "CNE.FF" => lineDAB .cneFF ns
  | "CLT.FF" => lineDAB .cltFF ns
  | "CGT.FF" => lineDAB .cgtFF ns
  | "CLE.FF" => lineDAB .cleFF ns
  | "CGE.FF" => lineDAB .cgeFF ns
  | "CEQ.FI" => lineDAB .ceqFI ns
  | "CNE.FI" => lineDAB .cneFI ns
  | "CLT.FI" => lineDAB .cltFI ns
  | "CGT.FI" => lineDAB .cgtFI ns
  | "CLE.FI" => lineDAB .cleFI ns
  | "CGE.FI" => lineDAB .cgeFI ns
  | "ADD.IF" => lineDAB (fun d a b => expand (.addIF d a b)) ns
  | "MUL.IF" => lineDAB (fun d a b => expand (.mulIF d a b)) ns
  | "CEQ.IF" => lineDAB (fun d a b => expand (.cmpIF .eq d a b)) ns
  | "CNE.IF" => lineDAB (fun d a b => expand (.cmpIF .ne d a b)) ns
  | "CLT.IF" => lineDAB (fun d a b => expand (.cmpIF .lt d a b)) ns
  | "CGT.IF" => lineDAB (fun d a b => expand (.cmpIF .gt d a b)) ns
  | "CLE.IF" => lineDAB (fun d a b => expand (.cmpIF .le d a b)) ns
  | "CGE.IF" => lineDAB (fun d a b => expand (.cmpIF .ge d a b)) ns
  | _ => none

/-- One line to one instruction, or an assembly error (`none`): the comment is dropped, the mnemonic runs to the first
blank, and the rest are the operands (R57). -/
def assembleLine (line : String) : Option Instr :=
  let cs := trimBlanks (dropComment line.toList)
  let mnemonic := cs.takeWhile (fun c => !isBlank c)
  match operandNumbers (cs.drop mnemonic.length) with
  | none => none
  | some ns => assembleOp (String.ofList mnemonic) ns

/-- One line to one word (R5, R63). -/
def assembleWord (line : String) : Option OpWord := (assembleLine line).map encode

end Sys2Proof.Machine
end

