-- ==== Sys2Proof/Machine/Instances.lean ====
section
/-! DEFINITION. Several instances side by side (20_memory.md R48, 60_exceptions.md R174): they share no state and do not
communicate. DEDUCED (assumption 12): a collection of instances is a list of states, and a schedule names the instance
that steps next. -/

namespace Sys2Proof.Machine

/-- The state after one step; an instance that has stopped (R167) stays as it is. -/
def State.advance (s : State) : State :=
  match step s with
  | .next t => t
  | .fault _ => s
  | .refused _ => s

/-- The state after `k` steps. -/
def State.advanceBy : Nat → State → State
  | 0, s => s
  | k + 1, s => State.advanceBy k s.advance

/-- Several instances, each with an identity of its own only by its place in the list (R174). -/
abbrev Instances := List State

/-- Instance `k` does one step; the others do nothing. -/
def stepInstance (k : Nat) (f : Instances) : Instances := f.modify k State.advance

/-- A schedule is a list of the instances that step, in order. -/
def runSchedule : List Nat → Instances → Instances
  | [], f => f
  | k :: ks, f => runSchedule ks (stepInstance k f)

end Sys2Proof.Machine
end

