-- ==== Sys2Proof/Machine/Serial.lean ====
section
/-! DEFINITION. The byte images of the host (20_memory.md R44): little-endian, a word in 4 bytes and a `W`-bit value in
`W/8` bytes. No program can observe them. -/

namespace Sys2Proof.Machine

/-- The byte image of a program. DESIGN CHOICE (assumption 14): word 0 comes first and the others follow in program order;
R44 gives the order of the bytes inside one word only. -/
def imageOfProgram (ws : List OpWord) : List Byte := ws.flatMap bytesOfWord

/-- The program of a byte image, its words in the order of assumption 14. DESIGN CHOICE (assumption 15): an image that is
not whole words stands for no program. -/
def programOfImage : List Byte → Option (List OpWord)
  | [] => some []
  | b0 :: b1 :: b2 :: b3 :: rest =>
    match programOfImage rest with
    | none => none
    | some ws => some (ofBytes 32 [b0, b1, b2, b3] :: ws)
  | _ => none

/-- The byte image of a value of an instance: `W/8` bytes. -/
def imageOfValue (c : Config) (v : BitVec c.W) : List Byte := toBytes (c.W / 8) v

/-- The value of a byte image. DESIGN CHOICE (assumption 15): an image that has not `W/8` bytes stands for no value. -/
def valueOfImage (c : Config) (bs : List Byte) : Option (BitVec c.W) :=
  if bs.length = c.W / 8 then some (ofBytes c.W bs) else none

end Sys2Proof.Machine
end

