-- ==== Sys2Proof/Machine/HostPort.lean ====
section
/-! DEFINITION. The host interface (70_reset_and_hazards.md R185): every interaction the one agent outside the block has,
in which run states it is allowed, and what the host gets back. A run between two interactions is `step`. -/

namespace Sys2Proof.Machine

/-- The host's interactions with an instance of width `w` (R185). -/
inductive HostCmd (w : Nat) where
  | reset
  | load (ws : List OpWord)
  | writeReg (i : Reg) (v : BitVec w)
  | start
  | readReg (i : Reg)
  | readFcause
  | readFpc
  | readFword
  | readCfg
  | readRs
  deriving DecidableEq, Repr

/-- What the host gets back (R185). -/
inductive HostReply (w : Nat) where
  /-- The interaction is done; it gives nothing back. -/
  | nothing
  /-- The table does not allow the interaction now; nothing has changed. DEDUCED (assumption 11): the host is told so. -/
  | refused
  /-- The value of a register. -/
  | value (v : BitVec w)
  /-- The register is UNDEF. -/
  | undef
  /-- The 32 bits of a status or configuration register. -/
  | bits (v : BitVec 32)
  /-- The run state. -/
  | state (r : RunState)
  deriving DecidableEq, Repr

/-- The host's register write: the value, and the unwritten mark cleared (R19, R185). -/
def Block.hostWrite {w : Nat} (i : Reg) (v : BitVec w) (b : Block w) : Block w := b.writeReg i v

/-- The host's program load replaces the program store (R41, R185). -/
def Block.hostLoad {w : Nat} (ws : List OpWord) (b : Block w) : Block w := { b with program := ws }

/-- The host's register read: the value, or UNDEF (R185). -/
def Block.hostRead {w : Nat} (i : Reg) (b : Block w) : HostReply w :=
  match b.readReg i with
  | none => .undef
  | some v => .value v

/-- One interaction (R185): the block after it, and the reply. A write, a load or a start outside IDLE, and a register
read during RUN, are refused and change nothing (93_implementation_defined.md U16 to U18). DEDUCED (assumption 6): a
program longer than R41 allows is refused too. -/
def hostAct (c : Config) (cmd : HostCmd c.W) (b : Block c.W) : Block c.W × HostReply c.W :=
  match cmd with
  | .reset => (b.applyReset, .nothing)
  | .load ws => if b.rs = .idle ∧ legalProgram ws then (b.hostLoad ws, .nothing) else (b, .refused)
  | .writeReg i v => if b.rs = .idle then (b.hostWrite i v, .nothing) else (b, .refused)
  | .start => if b.rs = .idle then (b.applyStart, .nothing) else (b, .refused)
  | .readReg i => if b.rs = .run then (b, .refused) else (b, b.hostRead i)
  | .readFcause => (b, .bits b.readFcause)
  | .readFpc => (b, .bits b.readFpc)
  | .readFword => (b, .bits b.readFword)
  | .readCfg => (b, .bits c.register)
  | .readRs => (b, .state b.rs)

/-- The state after one interaction. -/
def State.afterHost (s : State) (cmd : HostCmd s.cfg.W) : State :=
  { s with block := (hostAct s.cfg cmd s.block).1 }

/-- The reply of one interaction. -/
def State.hostReply (s : State) (cmd : HostCmd s.cfg.W) : HostReply s.cfg.W :=
  (hostAct s.cfg cmd s.block).2

/-- elaborate(W, P) (R1 to R3, R185): an instance, or a refusal. R181 has the host apply reset next; DESIGN CHOICE
(assumption 3): the instance already is in that state. -/
def elaborate (W P : Nat) : Option State := (Config.elaborate W P).map State.resetOf

end Sys2Proof.Machine
end

