-- ==== Sys2Proof/Machine/Value.lean ====
section
/-! DEFINITION. What a pattern denotes (10_state.md R10 to R12). No instruction computes with these rationals; they say
what the instructions' integer arithmetic means. -/

namespace Sys2Proof.Machine

/-- The real number a pattern denotes: `sint(b) / 2^P` (R10). -/
def denote (c : Config) (b : BitVec c.W) : Rat := (sint b : Rat) / 2 ^ c.P

/-- The integer field `b[W-1:P]` (R11). -/
def intField (c : Config) (b : BitVec c.W) : BitVec (c.W - c.P) := b.extractLsb' c.P (c.W - c.P)

/-- The fraction field `b[P-1:0]`, empty when `P = 0` (R11). -/
def fracField (c : Config) (b : BitVec c.W) : BitVec c.P := b.extractLsb' 0 c.P

end Sys2Proof.Machine
end

