-- ==== Sys2Proof/Safety.lean ====
section
/-! DEFINITION. The terms that claims use: the invariant of the block, reachability, how a run ends, and what a
register shows to the host. -/

namespace Sys2Proof.Machine

/-- What R21 to R23, R41, R160, R166, R167 and R183 say of the state of a block at every moment: the program fits, the
pc is an index into it or its end, IDLE has `pc = 0`, DONE has `pc = L`, the status registers are 0 outside FAULT, and
in FAULT they record one of the four causes, the pc and the word at pc. -/
abbrev Block.Inv {w : Nat} (b : Block w) : Prop :=
  b.program.length ≤ 2 ^ 32 - 1 ∧
  b.pc.toNat ≤ b.program.length ∧
  (b.rs = .idle → b.pc = 0#32) ∧
  (b.rs = .done → b.pc.toNat = b.program.length) ∧
  (b.rs ≠ .fault → b.fcause = 0#3 ∧ b.fpc = 0#32 ∧ b.fword = 0#32) ∧
  (b.rs = .fault → 1 ≤ b.fcause.toNat ∧ b.fcause.toNat ≤ 4 ∧ b.fpc = b.pc ∧ b.wordAtPc = some b.fword)

/-- The invariant of an instance. -/
abbrev State.Inv (s : State) : Prop := s.block.Inv

/-- The states an instance of configuration `c` can get into: from its first reset, by steps of the block and
interactions of the host (R185). -/
inductive Reachable (c : Config) : State → Prop where
  | reset : Reachable c (State.resetOf c)
  | step {s t : State} : Reachable c s → Machine.step s = .next t → Reachable c t
  | host {s : State} (cmd : HostCmd s.cfg.W) : Reachable c s → Reachable c (s.afterHost cmd)

/-- A run has ended (R184): normally in DONE, or in FAULT. -/
def Block.ended {w : Nat} (b : Block w) : Prop := b.rs = .done ∨ b.rs = .fault

/-- The pattern of a register as a number, so that registers of two states can be compared whatever their types; `none`
when the register is UNDEF. -/
def State.pattern (s : State) (r : Reg) : Option Nat := (s.block.readReg r).map (fun v => v.toNat)

/-- Every register but `rd` shows what it showed before (R20). -/
def Block.sameRegsBut {w : Nat} (rd : Reg) (b t : Block w) : Prop :=
  ∀ r, r ≠ rd → t.readReg r = b.readReg r

/-- What an instruction that completes leaves alone besides the other registers: the program store, the run state and
the status registers (R20, R23, R25, R41). -/
def Block.sameStatus {w : Nat} (b t : Block w) : Prop :=
  t.program = b.program ∧ t.rs = b.rs ∧ t.fcause = b.fcause ∧ t.fpc = b.fpc ∧ t.fword = b.fword

/-- From `b` to `t` an instruction has completed: `rd` shows `r` (`none` for UNDEF), the pc has advanced by one, and
nothing else has changed (R20, R21, R46). -/
def Block.CompletedTo {w : Nat} (b : Block w) (rd : Reg) (r : Option (BitVec w)) (t : Block w) : Prop :=
  t.readReg rd = r ∧ b.sameRegsBut rd t ∧ t.pc = b.pc + 1#32 ∧ b.sameStatus t

/-- From `b` to `t` the fault `k` has been taken (R166): every register, the pc and the program store are as before, RS is
FAULT, FCAUSE holds the code, FPC the pc and FWORD the word at pc. -/
def Block.FaultedTo {w : Nat} (b : Block w) (k : Cause) (t : Block w) : Prop :=
  (∀ r, t.readReg r = b.readReg r) ∧ t.pc = b.pc ∧ t.program = b.program ∧ t.rs = .fault ∧
    t.readFcause = zext 32 k.code ∧ t.fpc = b.pc ∧ ∀ v, b.wordAtPc = some v → t.fword = v

/-- The instruction `i` completes in the block `b` of configuration `c`, with `rd` then showing `r`. -/
def Completes (i : Instr) (c : Config) (b : Block c.W) (rd : Reg) (r : Option (BitVec c.W)) : Prop :=
  ∃ t : Block c.W, exec i ⟨c, b⟩ = .next ⟨c, t⟩ ∧ b.CompletedTo rd r t

/-- The instruction `i` takes the fault `k` in the block `b` of configuration `c`. -/
def Faults (i : Instr) (c : Config) (b : Block c.W) (k : Cause) : Prop :=
  ∃ t : Block c.W, exec i ⟨c, b⟩ = .next ⟨c, t⟩ ∧ b.FaultedTo k t

/-- A rule of a format DA instruction that raises nothing but `UNINIT_READ`: its opcode, the value of `rd` for every
written `ra`, and the fault for an unwritten one. -/
def UnaryRule (mk : Reg → Reg → Instr) (opcode : BitVec 8)
    (value : (c : Config) → BitVec c.W → BitVec c.W) : Prop :=
  ∀ (rd ra : Reg) (c : Config) (b : Block c.W),
    decode (packWord opcode rd ra 0) = .ok (mk rd ra) ∧
    (∀ v, b.readReg ra = some v → Completes (mk rd ra) c b rd (some (value c v))) ∧
    (b.readReg ra = none → Faults (mk rd ra) c b .uninitRead)

/-- A rule of a format DAB instruction that raises nothing but `UNINIT_READ`. -/
def BinaryRule (mk : Reg → Reg → Reg → Instr) (opcode : BitVec 8)
    (value : (c : Config) → BitVec c.W → BitVec c.W → BitVec c.W) : Prop :=
  ∀ (rd ra rb : Reg) (c : Config) (b : Block c.W),
    decode (packWord opcode rd ra rb) = .ok (mk rd ra rb) ∧
    (∀ v u, b.readReg ra = some v → b.readReg rb = some u →
      Completes (mk rd ra rb) c b rd (some (value c v u))) ∧
    (b.readReg ra = none ∨ b.readReg rb = none → Faults (mk rd ra rb) c b .uninitRead)

/-- A rule of a division, `zero` and `overflow` saying for which operands it raises `DIV_ZERO` and `DIV_OVERFLOW`: the
checks come in the order of R165, and past them it completes with `value`. -/
def DivisionRule (mk : Reg → Reg → Reg → Instr) (opcode : BitVec 8)
    (zero : (c : Config) → BitVec c.W → BitVec c.W → Prop)
    (overflow : (c : Config) → BitVec c.W → BitVec c.W → Prop)
    (value : (c : Config) → BitVec c.W → BitVec c.W → BitVec c.W) : Prop :=
  ∀ (rd ra rb : Reg) (c : Config) (b : Block c.W),
    decode (packWord opcode rd ra rb) = .ok (mk rd ra rb) ∧
    (∀ v u, b.readReg ra = some v → b.readReg rb = some u →
      (zero c v u → Faults (mk rd ra rb) c b .divZero) ∧
      (¬ zero c v u → overflow c v u → Faults (mk rd ra rb) c b .divOverflow) ∧
      (¬ zero c v u → ¬ overflow c v u → Completes (mk rd ra rb) c b rd (some (value c v u)))) ∧
    (b.readReg ra = none ∨ b.readReg rb = none → Faults (mk rd ra rb) c b .uninitRead)

/-- The three instructions that divide (R163, R164). -/
def isDivision : Instr → Bool
  | .divFF .. | .divFI .. | .divIF .. => true
  | .new .. | .mov .. | .fromInt .. | .fromPair .. | .toInt ..
  | .addFF .. | .subFF .. | .mulFF .. | .addFI .. | .subFI .. | .mulFI .. | .subIF ..
  | .ceqFF .. | .cneFF .. | .cltFF .. | .cgtFF .. | .cleFF .. | .cgeFF ..
  | .ceqFI .. | .cneFI .. | .cltFI .. | .cgtFI .. | .cleFI .. | .cgeFI .. => false

/-- The relation a condition stands for, on the real numbers that patterns denote (R54, R141). -/
def realCond : Cond → Rat → Rat → Prop
  | .eq, x, y => x = y
  | .ne, x, y => x ≠ y
  | .lt, x, y => x < y
  | .gt, x, y => x > y
  | .le, x, y => x ≤ y
  | .ge, x, y => x ≥ y

end Sys2Proof.Machine
end

