-- ==== Sys2Proof/Certificates/Slice0/Obligations.lean ====
section
/-! DEFINITION. The statements about the machine, for the provers. A state is written `⟨c, b⟩`: configuration `c`, block
`b`, so a statement for all `c` and `b` is one for all states of all configurations. -/

open Sys2Proof Sys2Proof.Machine

/-! ## Configuration, value format, reset -/

/-- R1 to R3: elaboration gives an instance of exactly the asked parameters when `W` is 8, 16, 32 or 64 and `P < W`, and
is refused otherwise. -/
def Obligations.ElaborationAcceptsExactlyLegalParameters : Prop :=
  ∀ W P : Nat,
    ((elaborate W P).isSome = true ↔ (W = 8 ∨ W = 16 ∨ W = 32 ∨ W = 64) ∧ P < W) ∧
    ∀ s, elaborate W P = some s → s.cfg.W = W ∧ s.cfg.P = P

/-- R14: the four rows of the trait table, and the ranges of the signed and unsigned representations, with their ends
attained. -/
def Obligations.TraitTableRowsAndRanges : Prop :=
  ([Width.w8, .w16, .w32, .w64].map fun w => (w.bits, w.wider.bits, w.narrower.bits)) =
    [(8, 16, 8), (16, 32, 8), (32, 64, 16), (64, 64, 32)] ∧
  (∀ n : Nat, (Width.ofBits n).isSome = true ↔ n = 8 ∨ n = 16 ∨ n = 32 ∨ n = 64) ∧
  (∀ (w : Width) (v : BitVec w.bits), -2 ^ (w.bits - 1) ≤ sint v ∧ sint v ≤ 2 ^ (w.bits - 1) - 1) ∧
  (∀ (w : Width) (v : BitVec w.bits), uint v ≤ 2 ^ w.bits - 1) ∧
  (∀ (w : Width) (z : Int), -2 ^ (w.bits - 1) ≤ z → z ≤ 2 ^ (w.bits - 1) - 1 → sint (wrap w.bits z) = z) ∧
  (∀ (w : Width) (n : Nat), n ≤ 2 ^ w.bits - 1 → uint (wrap w.bits n) = n)

/-- R24: CFG shows `W` in bits [6:0], `P` in bits [13:8] and 0 elsewhere; the host reads it in every state; no step and
no interaction of the host changes it. -/
def Obligations.CfgRegisterIsHardwired : Prop :=
  (∀ c : Config,
    uint (c.register.extractLsb' 0 7) = c.W ∧ c.register.extractLsb' 7 1 = 0#1 ∧
    uint (c.register.extractLsb' 8 6) = c.P ∧ c.register.extractLsb' 14 18 = 0#18) ∧
  (∀ (c : Config) (b : Block c.W), hostAct c .readCfg b = (b, .bits c.register)) ∧
  (∀ s t : State, step s = .next t → t.cfg.register = s.cfg.register) ∧
  (∀ (s : State) (cmd : HostCmd s.cfg.W), (s.afterHost cmd).cfg.register = s.cfg.register)

/-- R11: the integer field holds the floor of the value and the fraction field the remainder in ulps; bit `W-1` is the
sign, and the fraction field is empty at `P = 0`; at `P = W-1` the value lies in `[-1, 1)`. -/
def Obligations.ValueIsIntegerFieldPlusFraction : Prop :=
  ∀ (c : Config) (v : BitVec c.W),
    denote c v = (sint (intField c v) : Rat) + (uint (fracField c v) : Rat) / 2 ^ c.P ∧
    ⌊denote c v⌋ = sint (intField c v) ∧
    (v.getMsbD 0 = true ↔ denote c v < 0) ∧
    (c.P = 0 → denote c v = (sint (intField c v) : Rat)) ∧
    (c.P = c.W - 1 → -1 ≤ denote c v ∧ denote c v < 1)

/-- R12: every value is a multiple of the ulp between the least and the greatest value, which are attained; each value
has one pattern, and zero is the all-zero pattern. -/
def Obligations.ValueRangeAndUniquePatterns : Prop :=
  ∀ (c : Config) (v : BitVec c.W),
    (∃ k : Int, denote c v = (k : Rat) / 2 ^ c.P) ∧
    -2 ^ (c.W - 1 - c.P) ≤ denote c v ∧ denote c v ≤ 2 ^ (c.W - 1 - c.P) - 1 / 2 ^ c.P ∧
    denote c (BitVec.intMin c.W) = -2 ^ (c.W - 1 - c.P) ∧
    denote c (BitVec.intMax c.W) = 2 ^ (c.W - 1 - c.P) - 1 / 2 ^ c.P ∧
    (∀ u : BitVec c.W, denote c u = denote c v → u = v) ∧
    (denote c v = 0 ↔ v = 0#c.W)

/-- R180: reset, in any run state, as one interaction of the host. -/
def Obligations.ResetEmptiesTheBlock : Prop :=
  ∀ (c : Config) (b : Block c.W),
    ∃ t : Block c.W, hostAct c .reset b = (t, .nothing) ∧
      (∀ r, t.readReg r = none) ∧ t.pc = 0#32 ∧ t.rs = .idle ∧
      t.readFcause = 0#32 ∧ t.readFpc = 0#32 ∧ t.readFword = 0#32 ∧ t.program = b.program

/-- The reset state of every configuration, the one of `State.reset` among them, is what R180 leaves and meets the
invariant. The empty program store and the configuration `fixed<32,15>` of `State.reset` are the model's choices
(assumptions 1 and 2). -/
def Obligations.ResetStateMeetsInvariant : Prop :=
  (∀ c : Config, (State.resetOf c).Inv ∧ (State.resetOf c).cfg = c ∧
    (State.resetOf c).block = (State.resetOf c).block.applyReset) ∧
  State.reset.Inv ∧ State.reset.cfg.W = 32 ∧ State.reset.cfg.P = 15

/-! ## The step -/

/-- A step runs the decoded instruction: when the word at pc decodes to `i`, the step of a running block is `exec i`, and
this machine adds nothing around it. -/
def Obligations.StepRunsTheDecodedInstruction : Prop :=
  ∀ (s : State) (v : OpWord) (i : Instr),
    s.block.rs = .run → s.block.wordAtPc = some v → decode v = .ok i → step s = exec i s

/-- R183: in RUN, at `pc = L` the step makes RS DONE and changes nothing else; below, the word at pc is decoded, and
executed or faulted. -/
def Obligations.StepFollowsTheRun : Prop :=
  ∀ (c : Config) (b : Block c.W), b.rs = .run →
    (b.pc.toNat = b.program.length → step ⟨c, b⟩ = .next ⟨c, { b with rs := .done }⟩) ∧
    (∀ v, b.program[b.pc.toNat]? = some v →
      (∀ i, decode v = .ok i → step ⟨c, b⟩ = exec i ⟨c, b⟩) ∧
      (∀ e, decode v = .error e →
        ∃ t : Block c.W, step ⟨c, b⟩ = .next ⟨c, t⟩ ∧ b.FaultedTo .illegalInstruction t))

/-- R161: a word whose opcode is none of the 27, or with a must-be-zero bit set, raises `ILLEGAL_INSTRUCTION` with FWORD
the word, whatever the registers hold. -/
def Obligations.IllegalWordsFault : Prop :=
  ∀ (c : Config) (b : Block c.W) (v : OpWord), b.rs = .run → b.wordAtPc = some v →
    ((∀ row ∈ opcodeRows, row.1 ≠ opcodeField v) ∨
      (∃ row ∈ opcodeRows, row.1 = opcodeField v ∧ mustBeZeroOk row.2 v = false)) →
    ∃ t : Block c.W, step ⟨c, b⟩ = .next ⟨c, t⟩ ∧ b.FaultedTo .illegalInstruction t ∧
      t.readFcause = 1#32 ∧ t.readFword = v

/-- R22, R167, R176: outside RUN nothing executes. IDLE and DONE keep every piece of state, and a block in FAULT has
stopped with its status registers. That a step answers outside RUN at all is the model's (assumptions 8 and 9). -/
def Obligations.NothingExecutesOutsideRun : Prop :=
  ∀ (c : Config) (b : Block c.W),
    (b.rs = .idle ∨ b.rs = .done → step ⟨c, b⟩ = .next ⟨c, b⟩) ∧
    (b.rs = .fault → step ⟨c, b⟩ = .fault (.stopped b.readFcause b.readFpc b.readFword))

/-- R166: fault entry records the cause, the pc and the word at pc, makes RS FAULT, and does nothing else. -/
def Obligations.FaultEntryRecordsCausePcAndWord : Prop :=
  ∀ (c : Config) (b : Block c.W) (k : Cause) (v : OpWord), b.wordAtPc = some v →
    b.takeFault k =
      { b with rs := .fault, fcause := k.code, fpc := b.pc, fword := v } ∧
    (b.takeFault k).readFcause = zext 32 k.code ∧
    [Cause.illegalInstruction, .uninitRead, .divZero, .divOverflow].map Cause.code = [1#3, 2#3, 3#3, 4#3]

/-! ## The instructions, one statement per rule -/

/-- R80. -/
def Obligations.NewMarksItsDestinationUnwritten : Prop :=
  ∀ (rd : Reg) (c : Config) (b : Block c.W),
    decode (packWord 0x01#8 rd 0 0) = .ok (.new rd) ∧ Completes (.new rd) c b rd none

/-- R81. -/
def Obligations.MovCopiesThePattern : Prop :=
  UnaryRule .mov 0x02#8 fun _ v => v

/-- R82. -/
def Obligations.FromIntUpscales : Prop :=
  UnaryRule .fromInt 0x03#8 fun c v => wrap c.W (sint v * 2 ^ c.P)

/-- R83. -/
def Obligations.FromPairAddsTheFraction : Prop :=
  BinaryRule .fromPair 0x04#8 fun c v u => wrap c.W (sint v * 2 ^ c.P + enc c.P (uint u))

/-- R84. -/
def Obligations.ToIntTakesTheFloor : Prop :=
  UnaryRule .toInt 0x05#8 fun c v => wrap c.W (asr (sint v) c.P)

/-- R103, R104: the sum and the difference of the patterns, wrapped. -/
def Obligations.AddFFAndSubFFWrap : Prop :=
  BinaryRule .addFF 0x10#8 (fun c v u => wrap c.W (sint v + sint u)) ∧
  BinaryRule .subFF 0x11#8 (fun c v u => wrap c.W (sint v - sint u))

/-- R105. -/
def Obligations.MulFFShiftsTheWidenedProduct : Prop :=
  BinaryRule .mulFF 0x12#8 fun c v u => wrap c.W (asr (sintN c.WW (sint v * sint u)) c.P)

/-- R106. -/
def Obligations.DivFFDividesTheWidenedDividend : Prop :=
  DivisionRule .divFF 0x13#8
    (fun _ _ u => sint u = 0)
    (fun c v u => sintN c.WW (sint v * 2 ^ c.P) = -2 ^ (c.WW - 1) ∧ sint u = -1)
    (fun c v u => wrap c.W (tdiv (sintN c.WW (sint v * 2 ^ c.P)) (sint u)))

/-- R121, R122: the integer counts ulps; it is added or subtracted as it stands. -/
def Obligations.AddFIAndSubFIUseTheRawInteger : Prop :=
  BinaryRule .addFI 0x14#8 (fun c v u => wrap c.W (sint v + sint u)) ∧
  BinaryRule .subFI 0x15#8 (fun c v u => wrap c.W (sint v - sint u))

/-- R123: the integer is a factor. -/
def Obligations.MulFIScalesTheRawPattern : Prop :=
  BinaryRule .mulFI 0x16#8 fun c v u => wrap c.W (sint v * sint u)

/-- R124: the integer is a divisor of the raw pattern. -/
def Obligations.DivFIDividesTheRawPattern : Prop :=
  DivisionRule .divFI 0x17#8
    (fun _ _ u => sint u = 0)
    (fun c v u => sint v = -2 ^ (c.W - 1) ∧ sint u = -1)
    (fun c v u => wrap c.W (tdiv (sint v) (sint u)))

/-- R125: the integer is upscaled first. -/
def Obligations.SubIFUpscalesTheInteger : Prop :=
  BinaryRule .subIF 0x18#8 fun c v u => wrap c.W (sint (wrap c.W (sint v * 2 ^ c.P)) - sint u)

/-- R126: the integer is upscaled first, then divided as by DIV.FF. -/
def Obligations.DivIFUpscalesTheInteger : Prop :=
  DivisionRule .divIF 0x19#8
    (fun _ _ u => sint u = 0)
    (fun c v u => sintN c.WW (sint (wrap c.W (sint v * 2 ^ c.P)) * 2 ^ c.P) = -2 ^ (c.WW - 1) ∧ sint u = -1)
    (fun c v u => wrap c.W (tdiv (sintN c.WW (sint (wrap c.W (sint v * 2 ^ c.P)) * 2 ^ c.P)) (sint u)))

/-- R143 to R148, with R140 and R141: the six fixed-fixed comparisons. -/
def Obligations.FixedComparisonsCompareSignedPatterns : Prop :=
  BinaryRule .ceqFF 0x20#8 (fun c v u => wrap c.W (if sint v = sint u then 1 else 0)) ∧
  BinaryRule .cneFF 0x21#8 (fun c v u => wrap c.W (if sint v ≠ sint u then 1 else 0)) ∧
  BinaryRule .cltFF 0x22#8 (fun c v u => wrap c.W (if sint v < sint u then 1 else 0)) ∧
  BinaryRule .cgtFF 0x23#8 (fun c v u => wrap c.W (if sint v > sint u then 1 else 0)) ∧
  BinaryRule .cleFF 0x24#8 (fun c v u => wrap c.W (if sint v ≤ sint u then 1 else 0)) ∧
  BinaryRule .cgeFF 0x25#8 (fun c v u => wrap c.W (if sint v ≥ sint u then 1 else 0))

/-- R149 to R154, with R140 and R142: the six fixed-integer comparisons, the integer widened to `WW` bits and shifted
left by `P` there. -/
def Obligations.IntegerComparisonsWidenTheInteger : Prop :=
  BinaryRule .ceqFI 0x28#8 (fun c v u => wrap c.W (if sint v = sintN c.WW (sint u * 2 ^ c.P) then 1 else 0)) ∧
  BinaryRule .cneFI 0x29#8 (fun c v u => wrap c.W (if sint v ≠ sintN c.WW (sint u * 2 ^ c.P) then 1 else 0)) ∧
  BinaryRule .cltFI 0x2A#8 (fun c v u => wrap c.W (if sint v < sintN c.WW (sint u * 2 ^ c.P) then 1 else 0)) ∧
  BinaryRule .cgtFI 0x2B#8 (fun c v u => wrap c.W (if sint v > sintN c.WW (sint u * 2 ^ c.P) then 1 else 0)) ∧
  BinaryRule .cleFI 0x2C#8 (fun c v u => wrap c.W (if sint v ≤ sintN c.WW (sint u * 2 ^ c.P) then 1 else 0)) ∧
  BinaryRule .cgeFI 0x2D#8 (fun c v u => wrap c.W (if sint v ≥ sintN c.WW (sint u * 2 ^ c.P) then 1 else 0))

/-! ## Faults -/

/-- R162: an instruction that reads a register whose unwritten mark is set raises `UNINIT_READ`, whichever of its
operands it is; NEW, which reads none, never does. -/
def Obligations.UnwrittenOperandsFault : Prop :=
  (∀ (i : Instr) (c : Config) (b : Block c.W), (∃ r ∈ i.sources, b.readReg r = none) → Faults i c b .uninitRead) ∧
  (∀ i : Instr, i.sources = [] ↔ ∃ rd, i = .new rd)

/-- R163: a zero divisor raises `DIV_ZERO`, whatever the dividend. -/
def Obligations.ZeroDivisorFaults : Prop :=
  ∀ (rd ra rb : Reg) (c : Config) (b : Block c.W) (v : BitVec c.W),
    b.readReg ra = some v → b.readReg rb = some 0#c.W →
      Faults (.divFF rd ra rb) c b .divZero ∧ Faults (.divFI rd ra rb) c b .divZero ∧
        Faults (.divIF rd ra rb) c b .divZero

/-- R164: the least value of the quotient step's width over -1 raises `DIV_OVERFLOW`: at every `W` for DIV.FI; for DIV.FF
and DIV.IF only at `W = 64`, where it does happen. -/
def Obligations.QuotientOverflowFaults : Prop :=
  (∀ (rd ra rb : Reg) (c : Config) (b : Block c.W),
    b.readReg ra = some (BitVec.intMin c.W) → b.readReg rb = some (wrap c.W (-1)) →
      Faults (.divFI rd ra rb) c b .divOverflow) ∧
  (∀ (rd ra rb : Reg) (c : Config) (b : Block c.W) (v : BitVec c.W),
    b.readReg ra = some v → b.readReg rb = some (wrap c.W (-1)) →
      (sintN c.WW (sint v * 2 ^ c.P) = -2 ^ (c.WW - 1) → Faults (.divFF rd ra rb) c b .divOverflow) ∧
      (sintN c.WW (sint (wrap c.W (sint v * 2 ^ c.P)) * 2 ^ c.P) = -2 ^ (c.WW - 1) →
        Faults (.divIF rd ra rb) c b .divOverflow)) ∧
  (∃ (c : Config) (v : BitVec c.W), c.W = 64 ∧ c.P = 32 ∧ sintN c.WW (sint v * 2 ^ c.P) = -2 ^ (c.WW - 1)) ∧
  (∀ (rd ra rb : Reg) (c : Config) (b : Block c.W), c.W ≤ 32 →
    ¬ Faults (.divFF rd ra rb) c b .divOverflow ∧ ¬ Faults (.divIF rd ra rb) c b .divOverflow)

/-- R165: the order of the checks, through the step: decode before any read, an unwritten operand before the divisor,
a zero divisor before the quotient, which is looked at only for written operands and a non-zero divisor. -/
def Obligations.FaultChecksComeInOrder : Prop :=
  ∀ (c : Config) (b : Block c.W) (w : OpWord), b.rs = .run → b.wordAtPc = some w →
    (∀ e, decode w = .error e → step ⟨c, b⟩ = .next ⟨c, b.takeFault .illegalInstruction⟩) ∧
    (∀ i, decode w = .ok i → (∃ r ∈ i.sources, b.readReg r = none) →
      step ⟨c, b⟩ = .next ⟨c, b.takeFault .uninitRead⟩) ∧
    (∀ i rd ra rb v, decode w = .ok i → i = .divFF rd ra rb ∨ i = .divFI rd ra rb ∨ i = .divIF rd ra rb →
      b.readReg ra = some v → b.readReg rb = some 0#c.W → step ⟨c, b⟩ = .next ⟨c, b.takeFault .divZero⟩) ∧
    (∀ i, decode w = .ok i → (∀ r ∈ i.sources, b.readReg r ≠ none) →
      step ⟨c, b⟩ ≠ .next ⟨c, b.takeFault .uninitRead⟩ ∧
      step ⟨c, b⟩ ≠ .next ⟨c, b.takeFault .illegalInstruction⟩) ∧
    (∀ i rd ra rb, decode w = .ok i → i = .divFF rd ra rb ∨ i = .divFI rd ra rb ∨ i = .divIF rd ra rb →
      step ⟨c, b⟩ = .next ⟨c, b.takeFault .divOverflow⟩ →
        b.readReg ra ≠ none ∧ ∃ u, b.readReg rb = some u ∧ sint u = -1)

/-- R168: overflow, digit loss and rounding are not faults and leave no trace. An instruction that does not divide
completes whenever its operands hold values, and a division does for every divisor but 0 and -1; completing leaves the
status registers alone. -/
def Obligations.ArithmeticOverflowNeverFaults : Prop :=
  (∀ (i : Instr) (c : Config) (b : Block c.W), isDivision i = false →
    (∀ r ∈ i.sources, b.readReg r ≠ none) → ∃ r, Completes i c b i.dest r) ∧
  (∀ (rd ra rb : Reg) (c : Config) (b : Block c.W) (v u : BitVec c.W),
    b.readReg ra = some v → b.readReg rb = some u → sint u ≠ 0 → sint u ≠ -1 →
      ∃ q₁ q₂ q₃, Completes (.divFF rd ra rb) c b rd (some q₁) ∧ Completes (.divFI rd ra rb) c b rd (some q₂) ∧
        Completes (.divIF rd ra rb) c b rd (some q₃))

/-! ## Frames -/

/-- R20, R21, R46, R166: every instruction, in every state, is atomic. Either it completes, and then only its
destination and the pc change, or it takes one of three faults, and then no register and no pc changes. -/
def Obligations.EveryInstructionCompletesOrFaults : Prop :=
  ∀ (i : Instr) (c : Config) (b : Block c.W),
    (∃ r, Completes i c b i.dest r) ∨
      Faults i c b .uninitRead ∨ (isDivision i = true ∧ (Faults i c b .divZero ∨ Faults i c b .divOverflow))

/-- R46, R27: an instruction is a function of its operands. Two blocks of one configuration that agree on the registers
it reads both complete, with the same result, or both take the same fault. -/
def Obligations.ResultDependsOnlyOnOperands : Prop :=
  ∀ (i : Instr) (c : Config) (b b' t t' : Block c.W),
    (∀ r ∈ i.sources, b.readReg r = b'.readReg r) →
    exec i ⟨c, b⟩ = .next ⟨c, t⟩ → exec i ⟨c, b'⟩ = .next ⟨c, t'⟩ →
      (t.readReg i.dest = t'.readReg i.dest ∧ t.pc = b.pc + 1#32 ∧ t'.pc = b'.pc + 1#32) ∨
        (t.rs = .fault ∧ t'.rs = .fault ∧ t.fcause = t'.fcause ∧ t.pc = b.pc ∧ t'.pc = b'.pc)

/-! ## Encoding -/

/-- Every instruction's word decodes to it: no operand bit is dropped. -/
def Obligations.DecodeOfEncodeIsTheInstruction : Prop :=
  ∀ i : Instr, decode (encode i) = .ok i

/-- A word that decodes is the word of the instruction it decodes to: each instruction has one word. -/
def Obligations.EncodeOfDecodeIsTheWord : Prop :=
  ∀ (w : OpWord) (i : Instr), decode w = .ok i → encode i = w

/-- R55: the decoder is total, and accepts exactly the words of the 27 rows, which do not overlap. -/
def Obligations.DecodeAcceptsExactlyTheOpcodeRows : Prop :=
  (∀ w : OpWord, (∃ i, decode w = .ok i) ↔ ∃ row ∈ opcodeRows, rowMatches row w = true) ∧
  (∀ (w : OpWord), ∀ r ∈ opcodeRows, ∀ q ∈ opcodeRows, rowMatches r w = true → rowMatches q w = true → r = q) ∧
  opcodeRows.length = 27 ∧ decode 0#32 = .error .reservedOpcode

/-- Words written out from the spec's own examples (30_encoding.md R57, 95_test_vectors.md 2.7) decode to what they
stand for. -/
def Obligations.SpecWordsDecode : Prop :=
  decode 0x10123000#32 = .ok (.addFF 1 2 3) ∧ decode 0x01400000#32 = .ok (.new 4) ∧
  decode 0x05560000#32 = .ok (.toInt 5 6) ∧ decode 0x04814000#32 = .ok (.fromPair 8 1 4) ∧
  decode 0x19721000#32 = .ok (.divIF 7 2 1) ∧ decode 0x2B832000#32 = .ok (.cgtFI 8 3 2) ∧
  decode 0x10123001#32 = .error .mustBeZero ∧ decode 0x01480000#32 = .error .mustBeZero ∧
  decode 0x27000000#32 = .error .reservedOpcode ∧ decode 0xFFFFFFFF#32 = .error .reservedOpcode

/-- R54: for the opcodes `0x20 .. 0x2F` the table and the structure give the same answers. -/
def Obligations.ComparisonOpcodesFollowTheirStructure : Prop :=
  ∀ w : OpWord, 0x20#8 ≤ opcodeField w → opcodeField w ≤ 0x2F#8 → decode w = decodeComparison w

/-- R63: word assembly as a formula, for the fields of each format; a field not used is 0. -/
def Obligations.AssembledWordIsTheShiftFormula : Prop :=
  (∀ (op : BitVec 8) (rd ra rb : Reg),
    packWord op rd ra rb =
      (BitVec.ofNat 32 op.toNat <<< 24) ||| (BitVec.ofNat 32 rd.val <<< 20) |||
        (BitVec.ofNat 32 ra.val <<< 16) ||| (BitVec.ofNat 32 rb.val <<< 12)) ∧
  (∀ i : Instr, encode i = packWord i.opcode i.dest (i.sources[0]?.getD 0) (i.sources[1]?.getD 0))

/-- R44: byte images are little-endian, 4 bytes to a word and `W/8` to a value, and reading one back gives what was
written. The order of words in an image, the first word first, is the model's choice (assumption 14). -/
def Obligations.ByteImagesAreLittleEndian : Prop :=
  (∀ (w : OpWord) (k : Nat), k < 4 → (bytesOfWord w)[k]? = some (w.extractLsb' (8 * k) 8)) ∧
  (∀ w : OpWord, (bytesOfWord w).length = 4 ∧ ofBytes 32 (bytesOfWord w) = w) ∧
  (∀ (c : Config) (v : BitVec c.W) (k : Nat), k < c.W / 8 →
    (imageOfValue c v)[k]? = some (v.extractLsb' (8 * k) 8)) ∧
  (∀ (c : Config) (v : BitVec c.W), (imageOfValue c v).length = c.W / 8 ∧
    valueOfImage c (imageOfValue c v) = some v) ∧
  (∀ ws : List OpWord, programOfImage (imageOfProgram ws) = some ws) ∧
  (∀ (w : OpWord) (rest : List Byte), decodeBytes (bytesOfWord w ++ rest) = (decode w).map fun i => (i, rest))

/-! ## Pseudo-instructions -/

/-- R58, R59: the compound form gives the same result as the three-operand form into another register, and the
integer-left sum and product are the fixed-left ones with the operands swapped. -/
def Obligations.CompoundAndIntegerLeftForms : Prop :=
  (∀ (op : CompoundOp) (rd rb rq : Reg) (c : Config) (b : Block c.W) (r : Option (BitVec c.W)),
    Completes (expand (.compound op rd rb)) c b rd r ↔ Completes (compoundInstr op rq rd rb) c b rq r) ∧
  (∀ (rd ra rb : Reg) (c : Config) (b : Block c.W) (v u : BitVec c.W),
    b.readReg ra = some v → b.readReg rb = some u →
      Completes (expand (.addIF rd ra rb)) c b rd (some (wrap c.W (sint v + sint u))) ∧
      Completes (expand (.mulIF rd ra rb)) c b rd (some (wrap c.W (sint v * sint u))))

/-- R60: `Ccc.IF rd, ra, rb` compares the widened integer `x[ra]` against the fixed `x[rb]`, by its own condition. -/
def Obligations.IntegerLeftComparisonsMirror : Prop :=
  ∀ (k : Cond) (rd ra rb : Reg) (c : Config) (b : Block c.W) (v u : BitVec c.W),
    b.readReg ra = some v → b.readReg rb = some u →
      Completes (expand (.cmpIF k rd ra rb)) c b rd
        (some (wrap c.W (if condHolds k (sintN c.WW (sint v * 2 ^ c.P)) (sint u) then 1 else 0)))

/-- R57 to R60: lines of the spec's examples, and lines that are no instruction. Of the errors R57 names only the wrong
operand count; that `x16` and a lower-case mnemonic are errors, and that a blank may stand before a comment (the line
`ADD.FF x1, x3 ; a += b` is no line of the spec), are the model's readings (assumption 7, DESIGN CHOICE). -/
def Obligations.AssemblerSpellsWords : Prop :=
  assembleWord "ADD.FF x1, x2, x3" = some 0x10123000#32 ∧ assembleWord "NEW x4" = some 0x01400000#32 ∧
  assembleWord "TOINT x5, x6" = some 0x05560000#32 ∧ assembleWord "ADD.FF x1, x3 ; a += b" = some 0x10113000#32 ∧
  assembleWord "CLT.IF x3, x2, x1" = some 0x2B312000#32 ∧ assembleWord "MUL.IF x4, x2, x1" = some 0x16412000#32 ∧
  assembleWord "NEW x4, x5" = none ∧ assembleWord "MOV x1" = none ∧ assembleWord "NEW x16" = none ∧
  assembleWord "SUB.IF x1, x2" = none ∧ assembleWord "add.ff x1, x2, x3" = none

/-! ## Arithmetic -/

/-- R107: ADD.FF and MUL.FF are commutative, unwritten operands and wraps included; ADD.FF and SUB.FF form the group of
integers modulo `2^W`; MUL.FF is not associative. -/
def Obligations.FixedArithmeticLaws : Prop :=
  (∀ (rd ra rb : Reg) (s : State),
    exec (.addFF rd ra rb) s = exec (.addFF rd rb ra) s ∧ exec (.mulFF rd ra rb) s = exec (.mulFF rd rb ra) s) ∧
  (∀ (c : Config) (x y z : BitVec c.W),
    addValue c (sint (addValue c (sint x) (sint y))) (sint z) =
      addValue c (sint x) (sint (addValue c (sint y) (sint z))) ∧
    subValue c (sint x) (sint y) = addValue c (sint x) (sint (subValue c 0 (sint y))) ∧
    addValue c (sint x) 0 = x ∧ subValue c (sint x) (sint x) = 0#c.W) ∧
  (∃ (c : Config) (x y z : BitVec c.W),
    mulValue c (sint (mulValue c (sint x) (sint y))) (sint z) ≠
      mulValue c (sint x) (sint (mulValue c (sint y) (sint z))))

/-- R101, R105, R106, R164: for `W <= 32` the product and the shifted dividend fit the accumulator, so only the final
truncation can wrap; at `W = 64` the accumulator is no wider than the value, and they can wrap. -/
def Obligations.AccumulatorIsExactBelow64 : Prop :=
  (∀ (c : Config) (v u : BitVec c.W), c.W ≤ 32 →
    c.WW = 2 * c.W ∧ sintN c.WW (sint v * sint u) = sint v * sint u ∧
    sintN c.WW (sint v * 2 ^ c.P) = sint v * 2 ^ c.P ∧ sint v * 2 ^ c.P ≠ -2 ^ (c.WW - 1)) ∧
  (∀ c : Config, c.W = 64 → c.WW = 64) ∧
  (∃ (c : Config) (v u : BitVec c.W), c.W = 64 ∧ sintN c.WW (sint v * sint u) ≠ sint v * sint u ∧
    sintN c.WW (sint v * 2 ^ c.P) ≠ sint v * 2 ^ c.P)

/-- R84, R82: TOINT is the sign-extended integer field and never overflows, and FROMINT then TOINT gives back every
integer of the safe range. -/
def Obligations.ToIntIsTheIntegerField : Prop :=
  (∀ (c : Config) (v : BitVec c.W),
    toIntValue c (sint v) = sext c.W (intField c v) ∧ sint (toIntValue c (sint v)) = asr (sint v) c.P) ∧
  (∀ (c : Config) (n : Int), -2 ^ (c.W - 1 - c.P) ≤ n → n < 2 ^ (c.W - 1 - c.P) →
    sint (upscale c n) = n * 2 ^ c.P ∧ sint (toIntValue c (sint (upscale c n))) = n)

/-- R83: the addition of FROMPAIR never carries: the integer field is that of the upscaled integer part, and the fraction
field is `Enc(P, d)`. -/
def Obligations.FromPairNeverCarries : Prop :=
  ∀ (c : Config) (i : Int) (d : Nat),
    intField c (pairValue c i d) = intField c (upscale c i) ∧
    uint (fracField c (pairValue c i d)) = enc c.P d ∧
    pairValue c i 0 = upscale c i

/-- R71, R73, R74: the encoder's steps, on unbounded integers; its result always fits the fraction field. -/
def Obligations.EncoderFollowsItsSteps : Prop :=
  (∀ P d : Nat, enc P 0 = 0 ∧ enc 0 d = 0) ∧
  (∀ P d : Nat, 1 ≤ P → 1 ≤ d →
    10 ^ (ndigits d - 1) ≤ d ∧ d < 10 ^ ndigits d ∧
    (digitBudget P < ndigits d → normalise (digitBudget P) d = d / 10 ^ (ndigits d - digitBudget P)) ∧
    (ndigits d < digitBudget P → normalise (digitBudget P) d = d * 10 ^ (digitBudget P - ndigits d)) ∧
    (ndigits d = digitBudget P → normalise (digitBudget P) d = d) ∧
    10 ^ (digitBudget P - 1) ≤ normalise (digitBudget P) d ∧ normalise (digitBudget P) d < 10 ^ digitBudget P ∧
    enc P d = normalise (digitBudget P) d * 2 ^ P / 10 ^ digitBudget P ∧ enc P d < 2 ^ P)

/-- R72: the digit budget: its definition, the source's `L + 1` for `P >= 4`, and the spec's table for `P = 1 .. 63`. -/
def Obligations.DigitBudgetTable : Prop :=
  (∀ P : Nat, 1 ≤ P → digitBudget P = max 1 (ndigits (2 ^ P - 1) - 1)) ∧
  (∀ P : Nat, 4 ≤ P → digitBudget P = (Nat.log 10 (2 ^ P - 1) - 1) + 1) ∧
  (List.range' 1 63).map digitBudget =
    [1, 1, 1, 1, 1, 1, 2, 2, 2, 3, 3, 3, 3, 4, 4, 4, 5, 5, 5, 6, 6, 6, 6, 7, 7, 7, 8, 8, 8, 9, 9, 9, 9,
     10, 10, 10, 11, 11, 11, 12, 12, 12, 12, 13, 13, 13, 14, 14, 14, 15, 15, 15, 15, 16, 16, 16, 17, 17, 17,
     18, 18, 18, 18]

/-- R76: trailing zeros do not matter, 5 is one half and 25 a quarter, no fraction below a tenth can be built, distinct
normalized digits give distinct results for `P >= 4` but not at `P = 1`, and the encoder is monotone and bounded. -/
def Obligations.EncoderProperties : Prop :=
  (enc 1 5 = enc 1 9 ∧ normalise (digitBudget 1) 5 ≠ normalise (digitBudget 1) 9 ∧ enc 1 4 = 0) ∧
  ∀ P : Nat, 1 ≤ P →
    (∀ d, enc P d = enc P (10 * d)) ∧
    enc P 5 = 2 ^ (P - 1) ∧
    (2 ≤ P → 2 ≤ digitBudget P → enc P 25 = 2 ^ (P - 2)) ∧
    (∀ d, 1 ≤ d → 2 ^ P / 10 ≤ enc P d) ∧
    (4 ≤ P → 10 ^ digitBudget P < 2 ^ P ∧ ∀ d e, 1 ≤ d → 1 ≤ e →
      normalise (digitBudget P) d ≠ normalise (digitBudget P) e → enc P d ≠ enc P e) ∧
    (∀ d e, 1 ≤ d → 1 ≤ e → normalise (digitBudget P) d ≤ normalise (digitBudget P) e → enc P d ≤ enc P e) ∧
    (∀ d, enc P d ≤ 2 ^ P - 1)

/-- R141, R155: fixed-fixed comparisons compare the denoted reals at every width; fixed-integer ones compare the real
against the integer for `W <= 32`, even where FROMINT of the integer would wrap, and not always at `W = 64`. -/
def Obligations.ComparisonsCompareTheReals : Prop :=
  (∀ (k : Cond) (c : Config) (v u : BitVec c.W),
    condHolds k (sint v) (sint u) = true ↔ realCond k (denote c v) (denote c u)) ∧
  (∀ (k : Cond) (c : Config) (v u : BitVec c.W), c.W ≤ 32 →
    (condHolds k (sint v) (widened c (sint u)) = true ↔ realCond k (denote c v) (sint u : Rat))) ∧
  (∃ (c : Config) (v u : BitVec c.W), c.W = 64 ∧ condHolds .eq (sint v) (widened c (sint u)) = true ∧
    ¬ realCond .eq (denote c v) (sint u : Rat))

/-- R108: for `W <= 32`, a non-zero `b` with `|b| <= 1.0`, and a quotient that does not wrap, dividing and multiplying
back is within one ulp; for `|b| > 1.0` it need not be. -/
def Obligations.DivisionThenMultiplicationIsWithinAnUlp : Prop :=
  (∀ (c : Config) (v u q : BitVec c.W), c.W ≤ 32 → sint u ≠ 0 → |sint u| ≤ 2 ^ c.P →
    divValue c (sint v) (sint u) = .ok q → sint q = tdiv (sint v * 2 ^ c.P) (sint u) →
      |sint (mulValue c (sint q) (sint u)) - sint v| ≤ 1) ∧
  (∃ (c : Config) (v u q : BitVec c.W), c.W = 32 ∧ c.P = 15 ∧ divValue c (sint v) (sint u) = .ok q ∧
    sint q = tdiv (sint v * 2 ^ c.P) (sint u) ∧ |sint (mulValue c (sint q) (sint u)) - sint v| = 68)

/-! ## The whole machine -/

/-- Every step keeps the invariant, from every state that meets it: the program fits, the pc stays an index into it or
its end, the status registers are 0 outside FAULT, and in FAULT they record a cause of 1 to 4, the pc and its word. -/
def Obligations.EveryStepKeepsTheInvariant : Prop :=
  ∀ s t : State, s.Inv → step s = .next t → t.Inv

/-- Every state that steps and host interactions reach from the state after a first reset (whose empty program store is
the model's choice, assumption 2) meets the invariant, and its configuration is the one it was elaborated with. That a
load keeps the program within `2^32 - 1` words rests on the model's refusal of a longer one (assumption 6, DEDUCED). -/
def Obligations.ReachableStatesMeetTheInvariant : Prop :=
  ∀ (c : Config) (s : State), Reachable c s → s.Inv ∧ s.cfg = c

/-- R184, R187: a run cannot hang. From a running state that meets the invariant, at most `L - pc + 1` steps bring the
block to DONE, with FCAUSE 0, or to FAULT, with a cause. From a start that is at most `L + 1` steps. -/
def Obligations.EveryRunEndsWithinItsLength : Prop :=
  ∀ (c : Config) (b : Block c.W), b.Inv → b.rs = .run →
    ∃ (k : Nat) (t : Block c.W), k ≤ b.program.length - b.pc.toNat + 1 ∧
      Host.Core.run core k ⟨c, b⟩ = .next ⟨c, t⟩ ∧ t.ended ∧
      (t.rs = .done → k = b.program.length - b.pc.toNat + 1 ∧ t.pc.toNat = b.program.length ∧ t.readFcause = 0#32) ∧
      (t.rs = .fault → t.readFcause ≠ 0#32)

/-- R22: how the run state moves. A step leads from RUN to DONE at the end of the program and else to RUN or, with a fault
cause, to FAULT; outside RUN a step that answers a next state changes nothing; of the host's interactions only start
leaves IDLE, for RUN, and only reset leaves RUN, DONE and FAULT, for IDLE. -/
def Obligations.RunStateMovesOnlyAsStated : Prop :=
  (∀ s t : State, step s = .next t → s.block.rs = .run →
    (s.block.pc.toNat = s.block.program.length ∧ t.block.rs = .done) ∨
    (s.block.pc.toNat < s.block.program.length ∧
      (t.block.rs = .run ∨ (t.block.rs = .fault ∧ t.block.readFcause ≠ 0#32)))) ∧
  (∀ s t : State, step s = .next t → s.block.rs ≠ .run → t = s) ∧
  (∀ (c : Config) (b : Block c.W) (cmd : HostCmd c.W),
    (cmd = .reset → (hostAct c cmd b).1.rs = .idle) ∧
    (cmd = .start → b.rs = .idle → (hostAct c cmd b).1.rs = .run ∧ (hostAct c cmd b).1.pc = 0#32) ∧
    (cmd ≠ .reset → ¬ (cmd = .start ∧ b.rs = .idle) → (hostAct c cmd b).1.rs = b.rs))

/-- R170, R185, R167: while a block runs, and after its end, the host changes nothing but by reset. -/
def Obligations.HostDisturbsNoRunButByReset : Prop :=
  ∀ (c : Config) (b : Block c.W) (cmd : HostCmd c.W), b.rs ≠ .idle → cmd ≠ .reset → (hostAct c cmd b).1 = b

/-- R185, R182: the table of the host's interactions. The clauses that answer `.refused` also say what the host is told,
which is the model's reading (assumption 11, DEDUCED); loads longer than `2^32 - 1` words are left out (assumption 6). -/
def Obligations.HostInteractionsFollowTheTable : Prop :=
  (∀ W P : Nat, (elaborate W P).isSome = true ↔ (W = 8 ∨ W = 16 ∨ W = 32 ∨ W = 64) ∧ P < W) ∧
  ∀ (c : Config) (b : Block c.W),
    hostAct c .reset b = (b.applyReset, .nothing) ∧
    (∀ ws : List OpWord, ws.length ≤ 2 ^ 32 - 1 → b.rs = .idle →
      hostAct c (.load ws) b = ({ b with program := ws }, .nothing)) ∧
    (∀ ws : List OpWord, b.rs ≠ .idle → hostAct c (.load ws) b = (b, .refused)) ∧
    (∀ (i : Reg) (v : BitVec c.W), b.rs = .idle →
      ∃ t : Block c.W, hostAct c (.writeReg i v) b = (t, .nothing) ∧
        t.readReg i = some v ∧ b.sameRegsBut i t ∧ t.pc = b.pc ∧ b.sameStatus t) ∧
    (∀ (i : Reg) (v : BitVec c.W), b.rs ≠ .idle → hostAct c (.writeReg i v) b = (b, .refused)) ∧
    (b.rs = .idle → hostAct c .start b = ({ b with rs := .run, pc := 0#32 }, .nothing)) ∧
    (b.rs ≠ .idle → hostAct c .start b = (b, .refused)) ∧
    (∀ (i : Reg) (v : BitVec c.W), b.rs ≠ .run → b.readReg i = some v → hostAct c (.readReg i) b = (b, .value v)) ∧
    (∀ i : Reg, b.rs ≠ .run → b.readReg i = none → hostAct c (.readReg i) b = (b, .undef)) ∧
    (∀ i : Reg, b.rs = .run → hostAct c (.readReg i) b = (b, .refused)) ∧
    hostAct c .readFcause b = (b, .bits b.readFcause) ∧ hostAct c .readFpc b = (b, .bits b.readFpc) ∧
    hostAct c .readFword b = (b, .bits b.readFword) ∧ hostAct c .readCfg b = (b, .bits c.register) ∧
    hostAct c .readRs b = (b, .state b.rs)

/-- R48, R174, R184: instances run at once, in any interleaving, give each the results it gives alone. Wherever an
instance's own run is after as many steps as the schedule gives it, there it is in the interleaving; and a running block
that meets the invariant, given at least `L - pc + 1` steps among those of the others, ends in DONE or FAULT in exactly
the state its own run ends in, however many more steps the schedule gives it. Instances as a list, with a stopped one
staying as it is, are the model's (assumption 12, DEDUCED), and so is the step of a block in DONE (assumption 8). -/
def Obligations.InterleavedInstancesRunAsAlone : Prop :=
  (∀ (ks : List Nat) (f : Instances) (k : Nat) (s t : State),
    f[k]? = some s → Host.Core.run core (ks.count k) s = .next t → (runSchedule ks f)[k]? = some t) ∧
  (∀ (ks : List Nat) (f : Instances) (k : Nat) (c : Config) (b : Block c.W),
    f[k]? = some ⟨c, b⟩ → b.Inv → b.rs = .run → b.program.length - b.pc.toNat + 1 ≤ ks.count k →
      ∃ (j : Nat) (t : Block c.W), j ≤ b.program.length - b.pc.toNat + 1 ∧
        Host.Core.run core j ⟨c, b⟩ = .next ⟨c, t⟩ ∧ t.ended ∧ (runSchedule ks f)[k]? = some ⟨c, t⟩)
end

