-- ==== Sys2Proof/Laws/Prim.lean ====
section
/-! SUPPORT. What the pseudocode primitives compute, in the terms of the library. -/

namespace Sys2Proof.Machine

/-! ### Division and shift -/

/-- The spec's `sign(a)*sign(b)*floor(|a|/|b|)` is the library's division toward zero. -/
theorem tdiv_eq (a b : Int) : tdiv a b = a.tdiv b := by
  unfold tdiv
  rcases Int.natAbs_eq a with ha | ha <;> rcases Int.natAbs_eq b with hb | hb <;>
    rcases Nat.eq_zero_or_pos a.natAbs with ha0 | ha0 <;>
    rcases Nat.eq_zero_or_pos b.natAbs with hb0 | hb0
  all_goals
    generalize a.natAbs = m at *
    generalize b.natAbs = n at *
    subst ha hb
  all_goals try subst ha0
  all_goals try subst hb0
  all_goals simp [Int.sign_eq_one_of_pos, Int.tdiv_neg, Int.neg_tdiv, *]

/-- The arithmetic shift is the floor: `asr z s` is the one integer with `asr z s * 2^s <= z < (asr z s + 1) * 2^s`. -/
theorem asr_bounds (z : Int) (s : Nat) : asr z s * 2 ^ s ≤ z ∧ z < (asr z s + 1) * 2 ^ s := by
  have h : (0 : Int) < 2 ^ s := by positivity
  exact ⟨Int.ediv_mul_le z h.ne', Int.lt_ediv_add_one_mul_self z h⟩

/-! ### Wrapping -/

/-- A pattern is the wrap of the integer it denotes. -/
theorem wrap_sint {n : Nat} (v : BitVec n) : wrap n (sint v) = v := BitVec.ofInt_toInt

/-- Wrapping sees an integer only modulo `2^n`. -/
theorem wrap_eq_wrap_iff (n : Nat) (x y : Int) : wrap n x = wrap n y ↔ x % 2 ^ n = y % 2 ^ n := by
  have h : (0 : Int) < 2 ^ n := by positivity
  have hx := Int.emod_nonneg x h.ne'
  have hy := Int.emod_nonneg y h.ne'
  rw [← BitVec.toNat_inj, BitVec.toNat_ofInt, BitVec.toNat_ofInt]
  push_cast
  omega

/-- Inside the signed range of a width, wrapping loses nothing. -/
theorem sintN_of_range {n : Nat} (hn : 0 < n) {z : Int} (h1 : leastSigned n ≤ z) (h2 : z ≤ greatestSigned n) :
    sintN n z = z := by
  have hp : (2 : Int) ^ n = 2 * 2 ^ (n - 1) := by rw [← pow_succ']; congr 1; omega
  unfold leastSigned at h1
  unfold greatestSigned at h2
  unfold sintN sint wrap
  rw [BitVec.toInt_ofInt]
  apply Int.bmod_eq_of_le <;> push_cast <;> omega

/-- A wrapped integer lies in the signed range of its width. -/
theorem sint_range {n : Nat} (v : BitVec n) : leastSigned n ≤ sint v ∧ sint v ≤ greatestSigned n := by
  have h1 := BitVec.le_toInt v
  have h2 := BitVec.toInt_lt (x := v)
  unfold leastSigned greatestSigned sint
  omega

/-! ### Decimal digits -/

theorem ndigitsUpTo_bounds (fuel d : Nat) (hd : 1 ≤ d) (hf : d ≤ fuel) :
    1 ≤ ndigitsUpTo fuel d ∧ 10 ^ (ndigitsUpTo fuel d - 1) ≤ d ∧ d < 10 ^ ndigitsUpTo fuel d := by
  induction fuel generalizing d with
  | zero => omega
  | succ f ih =>
    unfold ndigitsUpTo
    split
    · simp; omega
    · obtain ⟨h1, h2, h3⟩ := ih (d / 10) (by omega) (by omega)
      refine ⟨by omega, ?_, ?_⟩
      · rw [Nat.add_sub_cancel]
        obtain ⟨k, hk⟩ : ∃ k, ndigitsUpTo f (d / 10) = k + 1 := ⟨_, (Nat.sub_add_cancel h1).symm⟩
        rw [hk, Nat.add_sub_cancel] at h2
        rw [hk, pow_succ]
        omega
      · rw [pow_succ]
        omega

/-- `ndigits` counts decimal digits: `10^(k-1) <= d < 10^k`. -/
theorem ndigits_bounds {d : Nat} (hd : 1 ≤ d) :
    1 ≤ ndigits d ∧ 10 ^ (ndigits d - 1) ≤ d ∧ d < 10 ^ ndigits d :=
  ndigitsUpTo_bounds (d + 1) d hd (by omega)

/-- The digit count is the only exponent with those bounds. -/
theorem ndigits_unique {d k : Nat} (hk : 1 ≤ k) (h1 : 10 ^ (k - 1) ≤ d) (h2 : d < 10 ^ k) : ndigits d = k := by
  have hd : 1 ≤ d := le_trans Nat.one_le_two_pow (le_trans (Nat.pow_le_pow_left (by norm_num) (k - 1)) h1)
  obtain ⟨g1, g2, g3⟩ := ndigits_bounds hd
  have a := (Nat.pow_lt_pow_iff_right (a := 10) (by norm_num)).mp (lt_of_le_of_lt h1 g3)
  have b := (Nat.pow_lt_pow_iff_right (a := 10) (by norm_num)).mp (lt_of_le_of_lt g2 h2)
  omega

/-- A trailing zero is one more digit. -/
theorem ndigits_mul_ten {d : Nat} (hd : 1 ≤ d) : ndigits (10 * d) = ndigits d + 1 := by
  obtain ⟨g1, g2, g3⟩ := ndigits_bounds hd
  apply ndigits_unique (by omega)
  · have e : 10 ^ (ndigits d + 1 - 1) = 10 * 10 ^ (ndigits d - 1) := by rw [← pow_succ']; congr 1; omega
    omega
  · rw [pow_succ]
    omega

/-! ### Widths -/

theorem width_bits_pos (w : Width) : 0 < w.bits := by cases w <;> decide

/-- Below 64 bits the accumulator is twice as wide as the value (R14). -/
theorem wider_double {c : Config} (h : c.W ≤ 32) : c.WW = 2 * c.W := by
  revert h
  show c.width.bits ≤ 32 → c.width.wider.bits = 2 * c.width.bits
  cases c.width <;> decide

/-- At 64 bits the accumulator is no wider (R14). -/
theorem wider_64 {c : Config} (h : c.width = .w64) : c.WW = 64 := by
  simp [Config.WW, h, Width.wider, Width.bits]

/-- The accumulator is never narrower than the value. -/
theorem W_le_WW (c : Config) : c.W ≤ c.WW := by
  show c.width.bits ≤ c.width.wider.bits
  cases c.width <;> decide

theorem P_lt_W (c : Config) : c.P < c.W := c.prec.isLt

end Sys2Proof.Machine
end

