-- ==== Sys2Proof/Laws/Arith.lean ====
section
/-! SUPPORT. What the value steps of the divisions and comparisons answer, case by case. -/

namespace Sys2Proof.Machine

/-! ### The division of two fixed values (R106) -/

theorem divValue_zero (c : Config) (a : Int) : divValue c a 0 = .error .divZero := rfl

theorem divValue_overflow (c : Config) (a : Int) (h : sintN c.WW (a * 2 ^ c.P) = leastSigned c.WW) :
    divValue c a (-1) = .error .divOverflow := by
  unfold divValue
  rw [if_neg (by decide)]
  exact if_pos ⟨h, rfl⟩

theorem divValue_ok (c : Config) (a b : Int) (hb : b ≠ 0)
    (h : ¬ (sintN c.WW (a * 2 ^ c.P) = leastSigned c.WW ∧ b = -1)) :
    divValue c a b = .ok (wrap c.W (tdiv (sintN c.WW (a * 2 ^ c.P)) b)) := by
  unfold divValue
  rw [if_neg hb]
  exact if_neg h

/-- What the division can answer. -/
theorem divValue_cases (c : Config) (a b : Int) :
    (b = 0 ∧ divValue c a b = .error .divZero) ∨
      (sintN c.WW (a * 2 ^ c.P) = leastSigned c.WW ∧ b = -1 ∧ divValue c a b = .error .divOverflow) ∨
        (b ≠ 0 ∧ divValue c a b = .ok (wrap c.W (tdiv (sintN c.WW (a * 2 ^ c.P)) b))) := by
  by_cases hb : b = 0
  · exact .inl ⟨hb, by rw [hb, divValue_zero]⟩
  · by_cases h : sintN c.WW (a * 2 ^ c.P) = leastSigned c.WW ∧ b = -1
    · exact .inr (.inl ⟨h.1, h.2, by rw [h.2, divValue_overflow c a h.1]⟩)
    · exact .inr (.inr ⟨hb, divValue_ok c a b hb h⟩)

/-! ### The division by an integer factor (R124) -/

theorem unscaleValue_zero (c : Config) (a : Int) : unscaleValue c a 0 = .error .divZero := rfl

theorem unscaleValue_overflow (c : Config) : unscaleValue c (leastSigned c.W) (-1) = .error .divOverflow := by
  unfold unscaleValue
  rw [if_neg (by decide)]
  exact if_pos ⟨rfl, rfl⟩

theorem unscaleValue_ok (c : Config) (a r : Int) (hr : r ≠ 0) (h : ¬ (a = leastSigned c.W ∧ r = -1)) :
    unscaleValue c a r = .ok (wrap c.W (tdiv a r)) := by
  unfold unscaleValue
  rw [if_neg hr]
  exact if_neg h

/-- What the division by an integer can answer. -/
theorem unscaleValue_cases (c : Config) (a r : Int) :
    (r = 0 ∧ unscaleValue c a r = .error .divZero) ∨
      (a = leastSigned c.W ∧ r = -1 ∧ unscaleValue c a r = .error .divOverflow) ∨
        (r ≠ 0 ∧ unscaleValue c a r = .ok (wrap c.W (tdiv a r))) := by
  by_cases hr : r = 0
  · exact .inl ⟨hr, by rw [hr, unscaleValue_zero]⟩
  · by_cases h : a = leastSigned c.W ∧ r = -1
    · exact .inr (.inl ⟨h.1, h.2, by rw [h.1, h.2, unscaleValue_overflow c]⟩)
    · exact .inr (.inr ⟨hr, unscaleValue_ok c a r hr h⟩)

/-! ### Conditions -/

/-- A condition holds exactly when its relation on integers does (R54). -/
theorem condHolds_iff (k : Cond) (A B : Int) :
    condHolds k A B = true ↔
      match k with
      | .eq => A = B
      | .ne => A ≠ B
      | .lt => A < B
      | .gt => A > B
      | .le => A ≤ B
      | .ge => A ≥ B := by
  cases k
  · exact beq_iff_eq
  · exact bne_iff_ne
  all_goals exact decide_eq_true_iff

end Sys2Proof.Machine
end

