-- ==== Sys2Proof/Laws/Decode.lean ====
section
/-! SUPPORT. The fields of an assembled word, and what the decoder's shared check can do. -/

namespace Sys2Proof

/-- The word as a number (R63). -/
theorem packWord_toNat (op : BitVec 8) (rd ra rb : Reg) :
    (packWord op rd ra rb).toNat =
      op.toNat * 2 ^ 24 + rd.val * 2 ^ 20 + ra.val * 2 ^ 16 + rb.val * 2 ^ 12 := by
  have h (r : Reg) : (regBits r).toNat = r.val := rfl
  unfold packWord
  simp only [BitVec.toNat_append, h, BitVec.toNat_ofNat]
  have := rd.isLt; have := ra.isLt; have := rb.isLt
  rw [← Nat.shiftLeft_add_eq_or_of_lt (i := 4) rd.isLt, ← Nat.shiftLeft_add_eq_or_of_lt (i := 4) ra.isLt,
    ← Nat.shiftLeft_add_eq_or_of_lt (i := 4) rb.isLt, ← Nat.shiftLeft_add_eq_or_of_lt (i := 12) (by decide)]
  simp only [Nat.shiftLeft_eq]
  omega

@[simp] theorem opcodeField_packWord (op : BitVec 8) (rd ra rb : Reg) :
    opcodeField (packWord op rd ra rb) = op := by
  apply BitVec.eq_of_toNat_eq
  rw [opcodeField, BitVec.extractLsb'_toNat, packWord_toNat, Nat.shiftRight_eq_div_pow]
  have := rd.isLt; have := ra.isLt; have := rb.isLt; have := op.isLt
  omega

@[simp] theorem rdField_packWord (op : BitVec 8) (rd ra rb : Reg) : rdField (packWord op rd ra rb) = rd := by
  apply Fin.ext
  show (BitVec.extractLsb' 20 4 (packWord op rd ra rb)).toNat = rd.val
  rw [BitVec.extractLsb'_toNat, packWord_toNat, Nat.shiftRight_eq_div_pow]
  have := rd.isLt; have := ra.isLt; have := rb.isLt; have := op.isLt
  omega

@[simp] theorem raField_packWord (op : BitVec 8) (rd ra rb : Reg) : raField (packWord op rd ra rb) = ra := by
  apply Fin.ext
  show (BitVec.extractLsb' 16 4 (packWord op rd ra rb)).toNat = ra.val
  rw [BitVec.extractLsb'_toNat, packWord_toNat, Nat.shiftRight_eq_div_pow]
  have := rd.isLt; have := ra.isLt; have := rb.isLt; have := op.isLt
  omega

@[simp] theorem rbField_packWord (op : BitVec 8) (rd ra rb : Reg) : rbField (packWord op rd ra rb) = rb := by
  apply Fin.ext
  show (BitVec.extractLsb' 12 4 (packWord op rd ra rb)).toNat = rb.val
  rw [BitVec.extractLsb'_toNat, packWord_toNat, Nat.shiftRight_eq_div_pow]
  have := rd.isLt; have := ra.isLt; have := rb.isLt; have := op.isLt
  omega

/-- The low bits a format must have zero, as a number. -/
theorem mustBeZeroOk_iff (f : Format) (w : OpWord) :
    mustBeZeroOk f w = true ↔
      w.toNat % (match f with | .D => 2 ^ 20 | .DA => 2 ^ 16 | .DAB => 2 ^ 12) = 0 := by
  cases f <;> simp [mustBeZeroOk, ← BitVec.toNat_inj]

theorem mustBeZeroOk_packWord_D (op : BitVec 8) (rd : Reg) : mustBeZeroOk .D (packWord op rd 0 0) = true := by
  rw [mustBeZeroOk_iff, packWord_toNat]
  show (_ + 0 * 2 ^ 16 + 0 * 2 ^ 12) % 2 ^ 20 = 0
  omega

theorem mustBeZeroOk_packWord_DA (op : BitVec 8) (rd ra : Reg) :
    mustBeZeroOk .DA (packWord op rd ra 0) = true := by
  rw [mustBeZeroOk_iff, packWord_toNat]
  show (_ + 0 * 2 ^ 12) % 2 ^ 16 = 0
  omega

theorem mustBeZeroOk_packWord_DAB (op : BitVec 8) (rd ra rb : Reg) :
    mustBeZeroOk .DAB (packWord op rd ra rb) = true := by
  rw [mustBeZeroOk_iff, packWord_toNat]
  show _ % 2 ^ 12 = 0
  omega

/-- A listed opcode decodes to its instruction exactly when its must-be-zero bits are zero (R51, R56). -/
theorem checked_eq_ok_iff (f : Format) (w : OpWord) (i j : Instr) :
    checked f w i = .ok j ↔ mustBeZeroOk f w = true ∧ i = j := by
  unfold checked
  split <;> simp [*]

/-! ### Rows of the opcode map -/

/-- Two concatenations of the same shape are equal exactly when their parts are. -/
theorem append_eq_append_iff {m n : Nat} (a c : BitVec m) (b d : BitVec n) :
    a ++ b = c ++ d ↔ a = c ∧ b = d := by
  constructor
  · intro h
    exact ⟨by simpa [BitVec.extractLsb'_append_eq_left] using congrArg (fun v => BitVec.extractLsb' n m v) h,
      by simpa [BitVec.extractLsb'_append_eq_right] using congrArg (fun v => BitVec.extractLsb' 0 n v) h⟩
  · rintro ⟨rfl, rfl⟩; rfl

/-- A mask that keeps the top byte and the low `n` bits of a word. -/
theorem and_mask_iff (k n : Nat) (op : BitVec 8) (w : BitVec (8 + (k + n))) :
    w &&& (BitVec.allOnes 8 ++ (0#k ++ BitVec.allOnes n)) = op ++ (0#k ++ 0#n) ↔
      w.extractLsb' (k + n) 8 = op ∧ w.extractLsb' 0 n = 0#n := by
  have h : w = w.extractLsb' (k + n) 8 ++ (w.extractLsb' n k ++ w.extractLsb' 0 n) := by
    rw [BitVec.extractLsb'_append_extractLsb'_eq_extractLsb' (by omega),
      BitVec.extractLsb'_append_extractLsb'_eq_extractLsb' (by omega), BitVec.extractLsb'_eq_self]
  have e : w &&& (BitVec.allOnes 8 ++ (0#k ++ BitVec.allOnes n)) =
      w.extractLsb' (k + n) 8 ++ (0#k ++ w.extractLsb' 0 n) := by
    conv_lhs => rw [h]
    rw [BitVec.and_append, BitVec.and_append, BitVec.and_allOnes, BitVec.and_allOnes, BitVec.and_zero]
  rw [e, append_eq_append_iff, append_eq_append_iff]
  simp

/-- A word is in a row exactly when it has the row's opcode and its must-be-zero bits are zero (R51). -/
theorem rowMatches_iff (f : Format) (op : BitVec 8) (w : OpWord) :
    rowMatches (op, f) w = true ↔ opcodeField w = op ∧ mustBeZeroOk f w = true := by
  unfold rowMatches
  rw [beq_iff_eq]
  cases f
  · exact (and_mask_iff 4 20 op w).trans (by rw [mustBeZeroOk, beq_iff_eq]; rfl)
  · exact (and_mask_iff 8 16 op w).trans (by rw [mustBeZeroOk, beq_iff_eq]; rfl)
  · exact (and_mask_iff 12 12 op w).trans (by rw [mustBeZeroOk, beq_iff_eq]; rfl)

end Sys2Proof
end

