-- ==== Sys2Proof/Laws/State.lean ====
section
/-! SUPPORT. One lemma per field per update of a block, and register reads after writes. -/

namespace Sys2Proof.Machine

variable {w : Nat}

/-! ### Reading a register after an update -/

theorem Block.readReg_writeReg (b : Block w) (r q : Reg) (v : BitVec w) :
    (b.writeReg r v).readReg q = if q = r then some v else b.readReg q := by
  simp only [Block.readReg, Block.writeReg, Vector.getElem_set, Fin.ext_iff, eq_comm]

theorem Block.readReg_markUnwritten (b : Block w) (r q : Reg) :
    (b.markUnwritten r).readReg q = if q = r then none else b.readReg q := by
  simp only [Block.readReg, Block.markUnwritten, Vector.getElem_set, Fin.ext_iff, eq_comm]

@[simp] theorem Block.readReg_writeReg_self (b : Block w) (r : Reg) (v : BitVec w) :
    (b.writeReg r v).readReg r = some v := by
  rw [Block.readReg_writeReg, if_pos rfl]

@[simp] theorem Block.readReg_markUnwritten_self (b : Block w) (r : Reg) :
    (b.markUnwritten r).readReg r = none := by
  rw [Block.readReg_markUnwritten, if_pos rfl]

theorem Block.readReg_writeReg_of_ne (b : Block w) {r q : Reg} (h : q ≠ r) (v : BitVec w) :
    (b.writeReg r v).readReg q = b.readReg q := by
  rw [Block.readReg_writeReg, if_neg h]

theorem Block.readReg_markUnwritten_of_ne (b : Block w) {r q : Reg} (h : q ≠ r) :
    (b.markUnwritten r).readReg q = b.readReg q := by
  rw [Block.readReg_markUnwritten, if_neg h]

@[simp] theorem Block.readReg_advance (b : Block w) (q : Reg) : b.advance.readReg q = b.readReg q := rfl

@[simp] theorem Block.readReg_takeFault (b : Block w) (c : Cause) (q : Reg) :
    (b.takeFault c).readReg q = b.readReg q := rfl

@[simp] theorem Block.readReg_endRun (b : Block w) (q : Reg) : b.endRun.readReg q = b.readReg q := rfl

@[simp] theorem Block.readReg_hostLoad (b : Block w) (ws : List OpWord) (q : Reg) :
    (b.hostLoad ws).readReg q = b.readReg q := rfl

@[simp] theorem Block.readReg_applyReset (b : Block w) (q : Reg) : b.applyReset.readReg q = none := by
  simp [Block.readReg, Block.applyReset]

@[simp] theorem Block.readReg_applyStart (b : Block w) (q : Reg) : b.applyStart.readReg q = b.readReg q := by
  unfold Block.applyStart
  cases b.rs <;> rfl

/-- Two blocks with the same register reads and the same other fields are the same block. -/
theorem Block.ext_readReg {b b' : Block w} (hp : b'.program = b.program)
    (hr : ∀ r, b'.readReg r = b.readReg r) (hpc : b'.pc = b.pc) (hrs : b'.rs = b.rs)
    (hc : b'.fcause = b.fcause) (hf : b'.fpc = b.fpc) (hw : b'.fword = b.fword) : b' = b := by
  have hregs : b'.regs = b.regs := Vector.ext fun i hi => hr ⟨i, hi⟩
  cases b
  cases b'
  simp_all

/-! ### writeReg -/

@[simp] theorem Block.writeReg_program (b : Block w) (r : Reg) (v : BitVec w) :
    (b.writeReg r v).program = b.program := rfl
@[simp] theorem Block.writeReg_pc (b : Block w) (r : Reg) (v : BitVec w) : (b.writeReg r v).pc = b.pc := rfl
@[simp] theorem Block.writeReg_rs (b : Block w) (r : Reg) (v : BitVec w) : (b.writeReg r v).rs = b.rs := rfl
@[simp] theorem Block.writeReg_fcause (b : Block w) (r : Reg) (v : BitVec w) :
    (b.writeReg r v).fcause = b.fcause := rfl
@[simp] theorem Block.writeReg_fpc (b : Block w) (r : Reg) (v : BitVec w) : (b.writeReg r v).fpc = b.fpc := rfl
@[simp] theorem Block.writeReg_fword (b : Block w) (r : Reg) (v : BitVec w) :
    (b.writeReg r v).fword = b.fword := rfl

/-! ### markUnwritten -/

@[simp] theorem Block.markUnwritten_program (b : Block w) (r : Reg) :
    (b.markUnwritten r).program = b.program := rfl
@[simp] theorem Block.markUnwritten_pc (b : Block w) (r : Reg) : (b.markUnwritten r).pc = b.pc := rfl
@[simp] theorem Block.markUnwritten_rs (b : Block w) (r : Reg) : (b.markUnwritten r).rs = b.rs := rfl
@[simp] theorem Block.markUnwritten_fcause (b : Block w) (r : Reg) :
    (b.markUnwritten r).fcause = b.fcause := rfl
@[simp] theorem Block.markUnwritten_fpc (b : Block w) (r : Reg) : (b.markUnwritten r).fpc = b.fpc := rfl
@[simp] theorem Block.markUnwritten_fword (b : Block w) (r : Reg) : (b.markUnwritten r).fword = b.fword := rfl

/-! ### advance -/

@[simp] theorem Block.advance_program (b : Block w) : b.advance.program = b.program := rfl
@[simp] theorem Block.advance_pc (b : Block w) : b.advance.pc = b.pc + 1#32 := rfl
@[simp] theorem Block.advance_rs (b : Block w) : b.advance.rs = b.rs := rfl
@[simp] theorem Block.advance_fcause (b : Block w) : b.advance.fcause = b.fcause := rfl
@[simp] theorem Block.advance_fpc (b : Block w) : b.advance.fpc = b.fpc := rfl
@[simp] theorem Block.advance_fword (b : Block w) : b.advance.fword = b.fword := rfl

/-! ### takeFault -/

@[simp] theorem Block.takeFault_program (b : Block w) (c : Cause) : (b.takeFault c).program = b.program := rfl
@[simp] theorem Block.takeFault_pc (b : Block w) (c : Cause) : (b.takeFault c).pc = b.pc := rfl
@[simp] theorem Block.takeFault_rs (b : Block w) (c : Cause) : (b.takeFault c).rs = .fault := rfl
@[simp] theorem Block.takeFault_fcause (b : Block w) (c : Cause) : (b.takeFault c).fcause = c.code := rfl
@[simp] theorem Block.takeFault_fpc (b : Block w) (c : Cause) : (b.takeFault c).fpc = b.pc := rfl
theorem Block.takeFault_fword (b : Block w) (c : Cause) {v : OpWord} (h : b.wordAtPc = some v) :
    (b.takeFault c).fword = v := by
  simp [Block.takeFault, h]

/-! ### endRun, applyReset, hostLoad -/

@[simp] theorem Block.endRun_program (b : Block w) : b.endRun.program = b.program := rfl
@[simp] theorem Block.endRun_pc (b : Block w) : b.endRun.pc = b.pc := rfl
@[simp] theorem Block.endRun_rs (b : Block w) : b.endRun.rs = .done := rfl
@[simp] theorem Block.endRun_fcause (b : Block w) : b.endRun.fcause = b.fcause := rfl
@[simp] theorem Block.endRun_fpc (b : Block w) : b.endRun.fpc = b.fpc := rfl
@[simp] theorem Block.endRun_fword (b : Block w) : b.endRun.fword = b.fword := rfl

@[simp] theorem Block.applyReset_program (b : Block w) : b.applyReset.program = b.program := rfl
@[simp] theorem Block.applyReset_pc (b : Block w) : b.applyReset.pc = 0#32 := rfl
@[simp] theorem Block.applyReset_rs (b : Block w) : b.applyReset.rs = .idle := rfl
@[simp] theorem Block.applyReset_fcause (b : Block w) : b.applyReset.fcause = 0#3 := rfl
@[simp] theorem Block.applyReset_fpc (b : Block w) : b.applyReset.fpc = 0#32 := rfl
@[simp] theorem Block.applyReset_fword (b : Block w) : b.applyReset.fword = 0#32 := rfl

@[simp] theorem Block.hostLoad_program (b : Block w) (ws : List OpWord) : (b.hostLoad ws).program = ws := rfl
@[simp] theorem Block.hostLoad_pc (b : Block w) (ws : List OpWord) : (b.hostLoad ws).pc = b.pc := rfl
@[simp] theorem Block.hostLoad_rs (b : Block w) (ws : List OpWord) : (b.hostLoad ws).rs = b.rs := rfl
@[simp] theorem Block.hostLoad_fcause (b : Block w) (ws : List OpWord) :
    (b.hostLoad ws).fcause = b.fcause := rfl
@[simp] theorem Block.hostLoad_fpc (b : Block w) (ws : List OpWord) : (b.hostLoad ws).fpc = b.fpc := rfl
@[simp] theorem Block.hostLoad_fword (b : Block w) (ws : List OpWord) : (b.hostLoad ws).fword = b.fword := rfl

/-! ### The state around a block -/

@[simp] theorem State.mapBlock_cfg (s : State) (f : (c : Config) → Block c.W → Block c.W) :
    (s.mapBlock f).cfg = s.cfg := rfl

@[simp] theorem State.mapBlock_mk (c : Config) (b : Block c.W) (f : (c : Config) → Block c.W → Block c.W) :
    State.mapBlock f ⟨c, b⟩ = ⟨c, f c b⟩ := rfl

@[simp] theorem State.perform_mk (c : Config) (b : Block c.W) (f : (c : Config) → Block c.W → Block c.W) :
    State.perform f ⟨c, b⟩ = .next ⟨c, f c b⟩ := rfl

end Sys2Proof.Machine
end

