-- ==== Sys2Proof/Laws/Ops.lean ====
section
/-! SUPPORT. For each shared operation, what it can do, said once. -/

namespace Sys2Proof.Machine

variable {w : Nat}

/-! ### Operand reads -/

theorem Block.withRa_some {b : Block w} {ra : Reg} {a : BitVec w} (h : b.readReg ra = some a)
    (k : BitVec w → Block w → Block w) : b.withRa ra k = k a b := by
  simp [Block.withRa, h]

theorem Block.withRa_none {b : Block w} {ra : Reg} (h : b.readReg ra = none)
    (k : BitVec w → Block w → Block w) : b.withRa ra k = b.takeFault .uninitRead := by
  simp [Block.withRa, h]

theorem Block.withRaRb_some {b : Block w} {ra rb : Reg} {va vb : BitVec w} (ha : b.readReg ra = some va)
    (hb : b.readReg rb = some vb) (k : BitVec w → BitVec w → Block w → Block w) :
    b.withRaRb ra rb k = k va vb b := by
  rw [Block.withRaRb, Block.withRa_some ha, Block.withRa_some hb]

/-- An unwritten `ra`, or an unwritten `rb`, ends in `UNINIT_READ` (R165). -/
theorem Block.withRaRb_none {b : Block w} {ra rb : Reg} (h : b.readReg ra = none ∨ b.readReg rb = none)
    (k : BitVec w → BitVec w → Block w → Block w) : b.withRaRb ra rb k = b.takeFault .uninitRead := by
  cases ha : b.readReg ra with
  | none => rw [Block.withRaRb, Block.withRa_none ha]
  | some a =>
    have hb : b.readReg rb = none := by simpa [ha] using h
    rw [Block.withRaRb, Block.withRa_some ha, Block.withRa_none hb]

/-- What a one-operand read can do. -/
theorem Block.withRa_cases (b : Block w) (ra : Reg) (k : BitVec w → Block w → Block w) :
    (∃ a, b.readReg ra = some a ∧ b.withRa ra k = k a b) ∨
      (b.readReg ra = none ∧ b.withRa ra k = b.takeFault .uninitRead) := by
  cases h : b.readReg ra with
  | none => exact .inr ⟨rfl, Block.withRa_none h k⟩
  | some a => exact .inl ⟨a, rfl, Block.withRa_some h k⟩

/-- What a two-operand read can do. -/
theorem Block.withRaRb_cases (b : Block w) (ra rb : Reg) (k : BitVec w → BitVec w → Block w → Block w) :
    (∃ va vb, b.readReg ra = some va ∧ b.readReg rb = some vb ∧ b.withRaRb ra rb k = k va vb b) ∨
      ((b.readReg ra = none ∨ b.readReg rb = none) ∧ b.withRaRb ra rb k = b.takeFault .uninitRead) := by
  cases ha : b.readReg ra with
  | none => exact .inr ⟨.inl rfl, Block.withRaRb_none (.inl ha) k⟩
  | some va =>
    cases hb : b.readReg rb with
    | none => exact .inr ⟨.inr rfl, Block.withRaRb_none (.inr hb) k⟩
    | some vb => exact .inl ⟨va, vb, rfl, rfl, Block.withRaRb_some ha hb k⟩

/-! ### Completing, settling, taking a fault -/

@[simp] theorem Block.complete_program (b : Block w) (rd : Reg) (v : BitVec w) :
    (b.complete rd v).program = b.program := rfl
@[simp] theorem Block.complete_pc (b : Block w) (rd : Reg) (v : BitVec w) :
    (b.complete rd v).pc = b.pc + 1#32 := rfl
@[simp] theorem Block.complete_rs (b : Block w) (rd : Reg) (v : BitVec w) : (b.complete rd v).rs = b.rs := rfl
@[simp] theorem Block.complete_fcause (b : Block w) (rd : Reg) (v : BitVec w) :
    (b.complete rd v).fcause = b.fcause := rfl
@[simp] theorem Block.complete_fpc (b : Block w) (rd : Reg) (v : BitVec w) : (b.complete rd v).fpc = b.fpc := rfl
@[simp] theorem Block.complete_fword (b : Block w) (rd : Reg) (v : BitVec w) :
    (b.complete rd v).fword = b.fword := rfl

theorem Block.readReg_complete (b : Block w) (rd q : Reg) (v : BitVec w) :
    (b.complete rd v).readReg q = if q = rd then some v else b.readReg q :=
  Block.readReg_writeReg b rd q v

@[simp] theorem Block.settle_ok (b : Block w) (rd : Reg) (v : BitVec w) :
    b.settle rd (.ok v) = b.complete rd v := rfl
@[simp] theorem Block.settle_error (b : Block w) (rd : Reg) (c : Cause) :
    b.settle rd (.error c) = b.takeFault c := rfl

/-- Everything fault entry does (R166), where the program has a word at pc. -/
theorem Block.takeFault_eq {b : Block w} {v : OpWord} (h : b.wordAtPc = some v) (c : Cause) :
    b.takeFault c = { b with rs := .fault, fcause := c.code, fpc := b.pc, fword := v } := by
  simp [Block.takeFault, h]

/-- A cause code is 1 to 4 (R160). -/
theorem Cause.code_range (c : Cause) : 1 ≤ c.code.toNat ∧ c.code.toNat ≤ 4 := by cases c <;> decide

/-- The hardwired bits of FCAUSE read 0 (R23). -/
theorem Block.readFcause_lt (b : Block w) : b.readFcause.toNat < 8 := by
  have h : uint b.fcause < 8 := b.fcause.isLt
  unfold Block.readFcause zext
  simp only [BitVec.ofInt_natCast, BitVec.toNat_ofNat]
  omega

/-! ### Fetch -/

/-- What fetch can find (R183). -/
theorem Block.fetch_cases (b : Block w) :
    (b.fetch = .endOfProgram ∧ b.pc.toNat = b.program.length) ∨
      (∃ v, b.fetch = .word v ∧ b.wordAtPc = some v ∧ b.pc.toNat < b.program.length) ∨
        (b.fetch = .beyond ∧ b.program.length < b.pc.toNat) := by
  unfold Block.fetch
  split
  · exact .inl ⟨rfl, ‹_›⟩
  · rename_i hne
    cases h : b.wordAtPc with
    | none =>
      have := List.getElem?_eq_none_iff.mp h
      exact .inr (.inr ⟨rfl, by omega⟩)
    | some v =>
      have := (List.getElem?_eq_some_iff.mp h).1
      exact .inr (.inl ⟨v, rfl, rfl, this⟩)

/-- A word at pc is what fetch finds. -/
theorem Block.fetch_word {b : Block w} {v : OpWord} (h : b.wordAtPc = some v) : b.fetch = .word v := by
  have := (List.getElem?_eq_some_iff.mp h).1
  unfold Block.fetch
  rw [if_neg (by omega), h]

end Sys2Proof.Machine
end

