-- ==== Sys2Proof/Laws/Step.lean ====
section
/-! SUPPORT. What one step of the block can do, said once, and how a run of several steps unfolds. -/

namespace Sys2Proof.Machine

/-- Everything a step can do, by run state and by what fetch finds (R22, R167, R183). -/
theorem step_cases (c : Config) (b : Block c.W) :
    ((b.rs = .idle ∨ b.rs = .done) ∧ step ⟨c, b⟩ = .next ⟨c, b⟩) ∨
    (b.rs = .fault ∧ step ⟨c, b⟩ = .fault b.stop) ∨
    (b.rs = .run ∧ b.pc.toNat = b.program.length ∧ step ⟨c, b⟩ = .next ⟨c, b.endRun⟩) ∨
    (b.rs = .run ∧ b.program.length < b.pc.toNat ∧ step ⟨c, b⟩ = .fault .noProgramWord) ∨
    (∃ v i, b.rs = .run ∧ b.wordAtPc = some v ∧ b.pc.toNat < b.program.length ∧ decode v = .ok i ∧
      step ⟨c, b⟩ = exec i ⟨c, b⟩) ∨
    (∃ v e, b.rs = .run ∧ b.wordAtPc = some v ∧ b.pc.toNat < b.program.length ∧ decode v = .error e ∧
      step ⟨c, b⟩ = .next ⟨c, b.takeFault .illegalInstruction⟩) := by
  cases hr : b.rs
  case idle => exact .inl ⟨.inl rfl, by simp [step, hr, Block.rest]⟩
  case done => exact .inl ⟨.inr rfl, by simp [step, hr, Block.rest]⟩
  case fault => exact .inr (.inl ⟨rfl, by simp [step, hr]⟩)
  case run =>
    rcases Block.fetch_cases b with ⟨h, hp⟩ | ⟨v, h, hv, hp⟩ | ⟨h, hp⟩
    · exact .inr (.inr (.inl ⟨rfl, hp, by simp [step, hr, h]⟩))
    · cases hd : decode v with
      | ok i => exact .inr (.inr (.inr (.inr (.inl ⟨v, i, rfl, hv, hp, hd, by simp [step, hr, h, hd]⟩))))
      | error e => exact .inr (.inr (.inr (.inr (.inr ⟨v, e, rfl, hv, hp, hd, by simp [step, hr, h, hd]⟩))))
    · exact .inr (.inr (.inr (.inl ⟨rfl, hp, by simp [step, hr, h]⟩)))

/-- A run whose first step answers a next state goes on from there. -/
theorem run_of_step {M : Host.Core} {s t : M.State} (h : M.step s = .next t) (k : Nat) :
    M.run (k + 1) s = M.run k t := by
  rw [Host.Core.run, h]

/-- The same for this machine, in the terms of `step`. -/
theorem core_run_of_step {s t : State} (h : step s = .next t) (k : Nat) :
    Host.Core.run core (k + 1) s = Host.Core.run core k t :=
  run_of_step (M := core) h k

end Sys2Proof.Machine
end

