-- ==== Sys2Proof/Laws/Instances.lean ====
section
/-! SUPPORT. What one step of an instance in a collection can do, and the steps of a sequence one by one. -/

namespace Sys2Proof.Machine

/-- An instance whose step answers a next state goes to it. -/
theorem State.advance_of_step {s t : State} (h : step s = .next t) : s.advance = t := by
  rw [State.advance, h]

/-- An instance whose run has ended stays as it is (assumptions 8 and 12). -/
theorem State.advance_of_ended {c : Config} {b : Block c.W} (h : b.ended) :
    State.advance ⟨c, b⟩ = ⟨c, b⟩ := by
  rcases h with h | h <;> simp [State.advance, step, State.mapBlock, Block.rest, h]

@[simp] theorem State.advanceBy_zero (s : State) : State.advanceBy 0 s = s := rfl

theorem State.advanceBy_succ (k : Nat) (s : State) : State.advanceBy (k + 1) s = State.advanceBy k s.advance := rfl

/-- The place of an instance after a step of instance `j`. -/
theorem getElem?_stepInstance (j k : Nat) (f : Instances) :
    (stepInstance j f)[k]? = if j = k then f[k]?.map State.advance else f[k]? := by
  rw [stepInstance, List.getElem?_modify]
  split <;> simp

end Sys2Proof.Machine
end

