-- ==== Sys2Proof/Laws/PerInstr.lean ====
section
/-! SUPPORT. The per-instruction family `TableMatch`: the word of an instruction is one of the words of its own row of
the opcode map, under the row's mask (30_encoding.md R51, R53), and its row is in the map. -/

namespace Sys2Proof.Laws.TableMatch

/-- The word of `i` matches the row of its opcode and format, and that row is one of the 27. -/
def Statement (i : Instr) : Prop :=
  rowMatches (i.opcode, i.format) (encode i) = true ∧ (i.opcode, i.format) ∈ opcodeRows

theorem of_D (op : BitVec 8) (rd : Reg) (h : (op, Format.D) ∈ opcodeRows) :
    rowMatches (op, .D) (packWord op rd 0 0) = true ∧ (op, Format.D) ∈ opcodeRows :=
  ⟨(rowMatches_iff _ _ _).mpr ⟨opcodeField_packWord _ _ _ _, mustBeZeroOk_packWord_D _ _⟩, h⟩

theorem of_DA (op : BitVec 8) (rd ra : Reg) (h : (op, Format.DA) ∈ opcodeRows) :
    rowMatches (op, .DA) (packWord op rd ra 0) = true ∧ (op, Format.DA) ∈ opcodeRows :=
  ⟨(rowMatches_iff _ _ _).mpr ⟨opcodeField_packWord _ _ _ _, mustBeZeroOk_packWord_DA _ _ _⟩, h⟩

theorem of_DAB (op : BitVec 8) (rd ra rb : Reg) (h : (op, Format.DAB) ∈ opcodeRows) :
    rowMatches (op, .DAB) (packWord op rd ra rb) = true ∧ (op, Format.DAB) ∈ opcodeRows :=
  ⟨(rowMatches_iff _ _ _).mpr ⟨opcodeField_packWord _ _ _ _, mustBeZeroOk_packWord_DAB _ _ _ _⟩, h⟩

theorem new (rd : Reg) : Statement (.new rd) :=
  of_D 0x01#8 rd (by decide)

theorem mov (rd ra : Reg) : Statement (.mov rd ra) :=
  of_DA 0x02#8 rd ra (by decide)

theorem fromInt (rd ra : Reg) : Statement (.fromInt rd ra) :=
  of_DA 0x03#8 rd ra (by decide)

theorem fromPair (rd ra rb : Reg) : Statement (.fromPair rd ra rb) :=
  of_DAB 0x04#8 rd ra rb (by decide)

theorem toInt (rd ra : Reg) : Statement (.toInt rd ra) :=
  of_DA 0x05#8 rd ra (by decide)

theorem addFF (rd ra rb : Reg) : Statement (.addFF rd ra rb) :=
  of_DAB 0x10#8 rd ra rb (by decide)

theorem subFF (rd ra rb : Reg) : Statement (.subFF rd ra rb) :=
  of_DAB 0x11#8 rd ra rb (by decide)

theorem mulFF (rd ra rb : Reg) : Statement (.mulFF rd ra rb) :=
  of_DAB 0x12#8 rd ra rb (by decide)

theorem divFF (rd ra rb : Reg) : Statement (.divFF rd ra rb) :=
  of_DAB 0x13#8 rd ra rb (by decide)

theorem addFI (rd ra rb : Reg) : Statement (.addFI rd ra rb) :=
  of_DAB 0x14#8 rd ra rb (by decide)

theorem subFI (rd ra rb : Reg) : Statement (.subFI rd ra rb) :=
  of_DAB 0x15#8 rd ra rb (by decide)

theorem mulFI (rd ra rb : Reg) : Statement (.mulFI rd ra rb) :=
  of_DAB 0x16#8 rd ra rb (by decide)

theorem divFI (rd ra rb : Reg) : Statement (.divFI rd ra rb) :=
  of_DAB 0x17#8 rd ra rb (by decide)

theorem subIF (rd ra rb : Reg) : Statement (.subIF rd ra rb) :=
  of_DAB 0x18#8 rd ra rb (by decide)

theorem divIF (rd ra rb : Reg) : Statement (.divIF rd ra rb) :=
  of_DAB 0x19#8 rd ra rb (by decide)

theorem ceqFF (rd ra rb : Reg) : Statement (.ceqFF rd ra rb) :=
  of_DAB 0x20#8 rd ra rb (by decide)

theorem cneFF (rd ra rb : Reg) : Statement (.cneFF rd ra rb) :=
  of_DAB 0x21#8 rd ra rb (by decide)

theorem cltFF (rd ra rb : Reg) : Statement (.cltFF rd ra rb) :=
  of_DAB 0x22#8 rd ra rb (by decide)

theorem cgtFF (rd ra rb : Reg) : Statement (.cgtFF rd ra rb) :=
  of_DAB 0x23#8 rd ra rb (by decide)

theorem cleFF (rd ra rb : Reg) : Statement (.cleFF rd ra rb) :=
  of_DAB 0x24#8 rd ra rb (by decide)

theorem cgeFF (rd ra rb : Reg) : Statement (.cgeFF rd ra rb) :=
  of_DAB 0x25#8 rd ra rb (by decide)

theorem ceqFI (rd ra rb : Reg) : Statement (.ceqFI rd ra rb) :=
  of_DAB 0x28#8 rd ra rb (by decide)

theorem cneFI (rd ra rb : Reg) : Statement (.cneFI rd ra rb) :=
  of_DAB 0x29#8 rd ra rb (by decide)

theorem cltFI (rd ra rb : Reg) : Statement (.cltFI rd ra rb) :=
  of_DAB 0x2A#8 rd ra rb (by decide)

theorem cgtFI (rd ra rb : Reg) : Statement (.cgtFI rd ra rb) :=
  of_DAB 0x2B#8 rd ra rb (by decide)

theorem cleFI (rd ra rb : Reg) : Statement (.cleFI rd ra rb) :=
  of_DAB 0x2C#8 rd ra rb (by decide)

theorem cgeFI (rd ra rb : Reg) : Statement (.cgeFI rd ra rb) :=
  of_DAB 0x2D#8 rd ra rb (by decide)

end Sys2Proof.Laws.TableMatch
end

