-- ==== Sys2Proof/Tests/Slice0.lean ====
section
/-! SUPPORT. Tests and witnesses. Expected values are the spec's: 95_test_vectors.md, by its section, and the rules it
cites. Each runs one step. A `test_witness_<statement>` shows that the hypotheses of that statement can be met, clause by
clause, at the ends of their ranges where they have any. -/

namespace Sys2Proof.Tests

open Sys2Proof Sys2Proof.Machine

/-! ## Small states -/

/-- `fixed<32,15>`. -/
abbrev c32 : Config := ⟨.w32, ⟨15, by decide⟩⟩
/-- `fixed<8,4>`. -/
abbrev c8 : Config := ⟨.w8, ⟨4, by decide⟩⟩
/-- `fixed<8,7>`, where `P = W-1`. -/
abbrev c8low : Config := ⟨.w8, ⟨7, by decide⟩⟩
/-- `fixed<16,8>`. -/
abbrev c16 : Config := ⟨.w16, ⟨8, by decide⟩⟩
/-- `fixed<64,32>`. -/
abbrev c64 : Config := ⟨.w64, ⟨32, by decide⟩⟩
/-- `fixed<64,0>`. -/
abbrev c64int : Config := ⟨.w64, ⟨0, by decide⟩⟩

/-- A block in RUN at `pc = 0` with a program and some written registers. -/
def blockOf (c : Config) (ws : List OpWord) (regs : List (Reg × Nat)) : Block c.W :=
  regs.foldl (fun b r => b.writeReg r.1 (wrap c.W r.2)) { (State.resetOf c).block with program := ws, rs := .run }

/-- The registers `x1` and `x2` of a test vector. -/
def operands (a : Nat) : Option Nat → List (Reg × Nat)
  | none => [(1, a)]
  | some b => [(1, a), (2, b)]

/-- `x1` and `x2` hold the two patterns in such a block. -/
abbrev bothWritten (c : Config) (v u : Nat) : Prop :=
  (blockOf c [] [(1, v), (2, u)]).readReg 1 = some (BitVec.ofNat c.W v) ∧
    (blockOf c [] [(1, v), (2, u)]).readReg 2 = some (BitVec.ofNat c.W u)

/-- What one step leaves: `x3`, the pc and FCAUSE. -/
def seen : Result → Option (Option Nat × Nat × Nat)
  | .next t => some (t.pattern 3, t.block.pc.toNat, t.block.readFcause.toNat)
  | .fault _ => none
  | .refused _ => none

/-- One instruction of 95_test_vectors.md, run as one step of a one-word program. -/
def after (c : Config) (i : Instr) (a : Nat) (b : Option Nat) : Option (Option Nat × Nat × Nat) :=
  seen (step ⟨c, blockOf c [encode i] (operands a b)⟩)

/-- What one step of a one-word program leaves when the host has written only the registers listed (section 2.6): RS,
FCAUSE, FPC and FWORD. -/
def ended (c : Config) (v : OpWord) (regs : List (Reg × Nat)) : Option (RunState × Nat × Nat × OpWord) :=
  match step ⟨c, blockOf c [v] regs⟩ with
  | .next t => some (t.block.rs, t.block.readFcause.toNat, t.block.readFpc.toNat, t.block.readFword)
  | .fault _ => none
  | .refused _ => none

/-! ## Well-formedness, and an ill-formed term for each check (E12; R52, R57) -/

theorem test_legal_parameters : legalParameters 32 15 = true ∧ legalParameters 64 63 = true ∧ legalParameters 8 0 = true := by
  decide
theorem test_illegal_width : legalParameters 24 15 = false ∧ legalParameters 128 15 = false := by decide
theorem test_illegal_precision : legalParameters 8 8 = false := by decide
theorem test_elaboration_refused :
    Config.elaborate 24 15 = none ∧ Config.elaborate 128 15 = none ∧ Config.elaborate 8 8 = none := by decide
theorem test_legal_program : legalProgram [0#32] = true := by decide
theorem test_program_too_long : legalProgram (List.replicate (2 ^ 32) 0#32) = false := by
  simp only [legalProgram, List.length_replicate]
  decide
theorem test_legal_operands : legalOperands .DAB [1, 2, 15] = true := by decide
theorem test_wrong_operand_count : legalOperands .DAB [1, 2] = false ∧ legalOperands .D [4, 5] = false := by decide
theorem test_register_out_of_range : legalOperands .D [16] = false := by decide

/-! ## Decoding, from the fields of R50 written out in bits, against the words of section 2.7 -/

theorem test_decode_new :
    decode (0b00000001#8 ++ 0b0100#4 ++ 0b0000#4 ++ 0b0000#4 ++ 0b000000000000#12) = .ok (.new 4) ∧
      encode (.new 4) = 0x01400000#32 := by decide
theorem test_decode_mov :
    decode (0b00000010#8 ++ 0b0001#4 ++ 0b0010#4 ++ 0b0000#4 ++ 0b000000000000#12) = .ok (.mov 1 2) ∧
      encode (.mov 1 2) = 0x02120000#32 := by decide
theorem test_decode_fromInt :
    decode (0b00000011#8 ++ 0b0101#4 ++ 0b0001#4 ++ 0b0000#4 ++ 0b000000000000#12) = .ok (.fromInt 5 1) ∧
      encode (.fromInt 5 1) = 0x03510000#32 := by decide
theorem test_decode_fromPair :
    decode (0b00000100#8 ++ 0b1000#4 ++ 0b0001#4 ++ 0b0100#4 ++ 0b000000000000#12) = .ok (.fromPair 8 1 4) ∧
      encode (.fromPair 8 1 4) = 0x04814000#32 := by decide
theorem test_decode_toInt :
    decode (0b00000101#8 ++ 0b0101#4 ++ 0b0110#4 ++ 0b0000#4 ++ 0b000000000000#12) = .ok (.toInt 5 6) ∧
      encode (.toInt 5 6) = 0x05560000#32 := by decide
theorem test_decode_addFF :
    decode (0b00010000#8 ++ 0b0001#4 ++ 0b0010#4 ++ 0b0011#4 ++ 0b000000000000#12) = .ok (.addFF 1 2 3) ∧
      encode (.addFF 1 2 3) = 0x10123000#32 := by decide
theorem test_decode_subFF :
    decode (0b00010001#8 ++ 0b1111#4 ++ 0b1110#4 ++ 0b1101#4 ++ 0b000000000000#12) = .ok (.subFF 15 14 13) ∧
      encode (.subFF 15 14 13) = 0x11FED000#32 := by decide
theorem test_decode_mulFF :
    decode (0b00010010#8 ++ 0b0111#4 ++ 0b0111#4 ++ 0b0111#4 ++ 0b000000000000#12) = .ok (.mulFF 7 7 7) ∧
      encode (.mulFF 7 7 7) = 0x12777000#32 := by decide
theorem test_decode_divFF :
    decode (0b00010011#8 ++ 0b0110#4 ++ 0b0110#4 ++ 0b0111#4 ++ 0b000000000000#12) = .ok (.divFF 6 6 7) ∧
      encode (.divFF 6 6 7) = 0x13667000#32 := by decide
theorem test_decode_addFI :
    decode (0b00010100#8 ++ 0b0011#4 ++ 0b0001#4 ++ 0b0010#4 ++ 0b000000000000#12) = .ok (.addFI 3 1 2) ∧
      encode (.addFI 3 1 2) = 0x14312000#32 := by decide
theorem test_decode_subFI :
    decode (0b00010101#8 ++ 0b0100#4 ++ 0b0011#4 ++ 0b0010#4 ++ 0b000000000000#12) = .ok (.subFI 4 3 2) ∧
      encode (.subFI 4 3 2) = 0x15432000#32 := by decide
theorem test_decode_mulFI :
    decode (0b00010110#8 ++ 0b0110#4 ++ 0b0001#4 ++ 0b0010#4 ++ 0b000000000000#12) = .ok (.mulFI 6 1 2) ∧
      encode (.mulFI 6 1 2) = 0x16612000#32 := by decide
theorem test_decode_divFI :
    decode (0b00010111#8 ++ 0b1000#4 ++ 0b0111#4 ++ 0b0010#4 ++ 0b000000000000#12) = .ok (.divFI 8 7 2) ∧
      encode (.divFI 8 7 2) = 0x17872000#32 := by decide
theorem test_decode_subIF :
    decode (0b00011000#8 ++ 0b0101#4 ++ 0b0010#4 ++ 0b0001#4 ++ 0b000000000000#12) = .ok (.subIF 5 2 1) ∧
      encode (.subIF 5 2 1) = 0x18521000#32 := by decide
theorem test_decode_divIF :
    decode (0b00011001#8 ++ 0b0111#4 ++ 0b0010#4 ++ 0b0001#4 ++ 0b000000000000#12) = .ok (.divIF 7 2 1) ∧
      encode (.divIF 7 2 1) = 0x19721000#32 := by decide
theorem test_decode_ceqFF :
    decode (0b00100000#8 ++ 0b1001#4 ++ 0b0101#4 ++ 0b1000#4 ++ 0b000000000000#12) = .ok (.ceqFF 9 5 8) ∧
      encode (.ceqFF 9 5 8) = 0x20958000#32 := by decide
theorem test_decode_cneFF :
    decode (0b00100001#8 ++ 0b0000#4 ++ 0b0001#4 ++ 0b0010#4 ++ 0b000000000000#12) = .ok (.cneFF 0 1 2) ∧
      encode (.cneFF 0 1 2) = 0x21012000#32 := by decide
theorem test_decode_cltFF :
    decode (0b00100010#8 ++ 0b0000#4 ++ 0b0001#4 ++ 0b0010#4 ++ 0b000000000000#12) = .ok (.cltFF 0 1 2) ∧
      encode (.cltFF 0 1 2) = 0x22012000#32 := by decide
theorem test_decode_cgtFF :
    decode (0b00100011#8 ++ 0b0000#4 ++ 0b0001#4 ++ 0b0010#4 ++ 0b000000000000#12) = .ok (.cgtFF 0 1 2) ∧
      encode (.cgtFF 0 1 2) = 0x23012000#32 := by decide
theorem test_decode_cleFF :
    decode (0b00100100#8 ++ 0b0000#4 ++ 0b0001#4 ++ 0b0010#4 ++ 0b000000000000#12) = .ok (.cleFF 0 1 2) ∧
      encode (.cleFF 0 1 2) = 0x24012000#32 := by decide
theorem test_decode_cgeFF :
    decode (0b00100101#8 ++ 0b0000#4 ++ 0b0001#4 ++ 0b0010#4 ++ 0b000000000000#12) = .ok (.cgeFF 0 1 2) ∧
      encode (.cgeFF 0 1 2) = 0x25012000#32 := by decide
theorem test_decode_ceqFI :
    decode (0b00101000#8 ++ 0b0101#4 ++ 0b0010#4 ++ 0b0001#4 ++ 0b000000000000#12) = .ok (.ceqFI 5 2 1) ∧
      encode (.ceqFI 5 2 1) = 0x28521000#32 := by decide
theorem test_decode_cneFI :
    decode (0b00101001#8 ++ 0b0000#4 ++ 0b0001#4 ++ 0b0010#4 ++ 0b000000000000#12) = .ok (.cneFI 0 1 2) ∧
      encode (.cneFI 0 1 2) = 0x29012000#32 := by decide
theorem test_decode_cltFI :
    decode (0b00101010#8 ++ 0b0000#4 ++ 0b0001#4 ++ 0b0010#4 ++ 0b000000000000#12) = .ok (.cltFI 0 1 2) ∧
      encode (.cltFI 0 1 2) = 0x2A012000#32 := by decide
theorem test_decode_cgtFI :
    decode (0b00101011#8 ++ 0b1000#4 ++ 0b0011#4 ++ 0b0010#4 ++ 0b000000000000#12) = .ok (.cgtFI 8 3 2) ∧
      encode (.cgtFI 8 3 2) = 0x2B832000#32 := by decide
theorem test_decode_cleFI :
    decode (0b00101100#8 ++ 0b0000#4 ++ 0b0001#4 ++ 0b0010#4 ++ 0b000000000000#12) = .ok (.cleFI 0 1 2) ∧
      encode (.cleFI 0 1 2) = 0x2C012000#32 := by decide
theorem test_decode_cgeFI :
    decode (0b00101101#8 ++ 0b0000#4 ++ 0b0001#4 ++ 0b0010#4 ++ 0b000000000000#12) = .ok (.cgeFI 0 1 2) ∧
      encode (.cgeFI 0 1 2) = 0x2D012000#32 := by decide

theorem test_decode_illegal :
    decode 0x10123800#32 = .error .mustBeZero ∧ decode 0x05561000#32 = .error .mustBeZero ∧
      decode 0x00000000#32 = .error .reservedOpcode ∧ decode 0x1A000000#32 = .error .reservedOpcode := by decide
theorem test_decode_table_word :
    decodeTableWord 32 0x2D000000 = some (.cgeFI 0 0 0) ∧ decodeTableWord 32 0xFFFFFFFF = none := by decide
theorem test_byte_images :
    bytesOfWord 0x10123000#32 = [0x00#8, 0x30#8, 0x12#8, 0x10#8] ∧
      imageOfValue c32 0x0007C000#32 = [0x00#8, 0xC0#8, 0x07#8, 0x00#8] := by decide

/-! ## One step per vector (sections 2.2 to 2.5): `x3`, the pc, FCAUSE -/

theorem test_new_unwrites :
    seen (step ⟨c32, blockOf c32 [0x01300000#32] [(3, 7)]⟩) = some (none, 1, 0) := by decide
theorem test_mov_copies : after c32 (.mov 3 1) 0x00018000 none = some (some 0x00018000, 1, 0) := by decide
theorem test_fromInt_upscales : after c32 (.fromInt 3 1) 0x0000000F none = some (some 0x00078000, 1, 0) := by decide
theorem test_fromInt_wraps : after c8 (.fromInt 3 1) 0x08 none = some (some 0x80, 1, 0) := by decide
theorem test_fromPair_adds_fraction_as_magnitude : after c32 (.fromPair 3 1 2) 0xFFFFFFFF (some 0x00000005) = some (some 0xFFFFC000, 1, 0) := by decide
theorem test_fromPair_reads_digits_unsigned : after c8low (.fromPair 3 1 2) 0x00 (some 0xFF) = some (some 0x20, 1, 0) := by decide
theorem test_toInt_floors : after c32 (.toInt 3 1) 0xFFFF4000 none = some (some 0xFFFFFFFE, 1, 0) := by decide
theorem test_toInt_greatest : after c32 (.toInt 3 1) 0x7FFFFFFF none = some (some 0x0000FFFF, 1, 0) := by decide
theorem test_addFF_wraps : after c32 (.addFF 3 1 2) 0x7FFFFFFF (some 0x00000001) = some (some 0x80000000, 1, 0) := by decide
theorem test_addFF_negative : after c16 (.addFF 3 1 2) 0xFF80 (some 0x0040) = some (some 0xFFC0, 1, 0) := by decide
theorem test_subFF_order : after c32 (.subFF 3 1 2) 0x00008000 (some 0x0000C000) = some (some 0xFFFFC000, 1, 0) := by decide
theorem test_subFF_wraps : after c8 (.subFF 3 1 2) 0x80 (some 0x01) = some (some 0x7F, 1, 0) := by decide
theorem test_mulFF_rounds_down : after c32 (.mulFF 3 1 2) 0xFFFFFFFF (some 0x00004000) = some (some 0xFFFFFFFF, 1, 0) := by decide
theorem test_mulFF_wraps_at_64 : after c64 (.mulFF 3 1 2) 0x0000000100000000 (some 0x0000000180000000) = some (some 0xFFFFFFFF80000000, 1, 0) := by decide
theorem test_divFF_rounds_to_zero : after c32 (.divFF 3 1 2) 0xFFFF8000 (some 0x00018000) = some (some 0xFFFFD556, 1, 0) := by decide
theorem test_divFF_overflow_at_64 : after c64 (.divFF 3 1 2) 0x0000000080000000 (some 0xFFFFFFFFFFFFFFFF) = some (none, 0, 4) := by decide
theorem test_addFI_adds_ulps : after c32 (.addFI 3 1 2) 0x00028000 (some 0x00000001) = some (some 0x00028001, 1, 0) := by decide
theorem test_addFI_wraps : after c32 (.addFI 3 1 2) 0x7FFFFFFF (some 0x00000001) = some (some 0x80000000, 1, 0) := by decide
theorem test_subFI_subtracts_ulps : after c32 (.subFI 3 1 2) 0x00028000 (some 0x00000002) = some (some 0x00027FFE, 1, 0) := by decide
theorem test_subFI_wraps : after c8 (.subFI 3 1 2) 0x80 (some 0x01) = some (some 0x7F, 1, 0) := by decide
theorem test_mulFI_scales : after c32 (.mulFI 3 1 2) 0xFFFFC000 (some 0x00000003) = some (some 0xFFFF4000, 1, 0) := by decide
theorem test_mulFI_wraps : after c8 (.mulFI 3 1 2) 0x18 (some 0x06) = some (some 0x90, 1, 0) := by decide
theorem test_divFI_rounds_to_zero : after c32 (.divFI 3 1 2) 0xFFFFFFFF (some 0x00000002) = some (some 0x00000000, 1, 0) := by decide
theorem test_divFI_overflow : after c8 (.divFI 3 1 2) 0x80 (some 0xFF) = some (none, 0, 4) := by decide
theorem test_subIF_upscales_left : after c32 (.subIF 3 1 2) 0x00000005 (some 0x00010000) = some (some 0x00018000, 1, 0) := by decide
theorem test_subIF_wraps : after c8 (.subIF 3 1 2) 0xF8 (some 0x01) = some (some 0x7F, 1, 0) := by decide
theorem test_divIF_upscales_left : after c32 (.divIF 3 1 2) 0x00000002 (some 0x00028000) = some (some 0x00003333, 1, 0) := by decide
theorem test_divIF_divides_by_zero : after c64 (.divIF 3 1 2) 0x0000000000000000 (some 0x0000000000000000) = some (none, 0, 3) := by decide
theorem test_ceqFF_equal : after c32 (.ceqFF 3 1 2) 0x0007C000 (some 0x0007C000) = some (some 1, 1, 0) := by decide
theorem test_ceqFF_one_ulp_apart : after c32 (.ceqFF 3 1 2) 0x00008000 (some 0x00008001) = some (some 0, 1, 0) := by decide
theorem test_cneFF_one_ulp_apart : after c32 (.cneFF 3 1 2) 0x00008000 (some 0x00008001) = some (some 1, 1, 0) := by decide
theorem test_cneFF_equal : after c32 (.cneFF 3 1 2) 0x00008000 (some 0x00008000) = some (some 0, 1, 0) := by decide
theorem test_cltFF_signed : after c8 (.cltFF 3 1 2) 0x7F (some 0x80) = some (some 0, 1, 0) := by decide
theorem test_cltFF_least_first : after c32 (.cltFF 3 1 2) 0x80000000 (some 0x7FFFFFFF) = some (some 1, 1, 0) := by decide
theorem test_cgtFF_greater : after c32 (.cgtFF 3 1 2) 0x00030000 (some 0x0002C000) = some (some 1, 1, 0) := by decide
theorem test_cgtFF_equal : after c32 (.cgtFF 3 1 2) 0x0002C000 (some 0x0002C000) = some (some 0, 1, 0) := by decide
theorem test_cleFF_equal : after c32 (.cleFF 3 1 2) 0xFFFF8000 (some 0xFFFF8000) = some (some 1, 1, 0) := by decide
theorem test_cleFF_greater : after c32 (.cleFF 3 1 2) 0x00008001 (some 0x00008000) = some (some 0, 1, 0) := by decide
theorem test_cgeFF_signed : after c32 (.cgeFF 3 1 2) 0x80000000 (some 0xFFFFC000) = some (some 0, 1, 0) := by decide
theorem test_cgeFF_equal : after c32 (.cgeFF 3 1 2) 0x00004000 (some 0x00004000) = some (some 1, 1, 0) := by decide
theorem test_ceqFI_is_exact_below_64 : after c8 (.ceqFI 3 1 2) 0x80 (some 0x08) = some (some 0, 1, 0) := by decide
theorem test_ceqFI_wraps_at_64 : after c64 (.ceqFI 3 1 2) 0x0000000000000000 (some 0x0000000100000000) = some (some 1, 1, 0) := by decide
theorem test_cneFI_fraction : after c32 (.cneFI 3 1 2) 0x0002C000 (some 0x00000005) = some (some 1, 1, 0) := by decide
theorem test_cltFI_is_exact_below_64 : after c8 (.cltFI 3 1 2) 0x7F (some 0x08) = some (some 1, 1, 0) := by decide
theorem test_cltFI_wraps_at_64 : after c64 (.cltFI 3 1 2) 0x0000000000000000 (some 0x0000000080000000) = some (some 0, 1, 0) := by decide
theorem test_cgtFI_is_exact_below_64 : after c8 (.cgtFI 3 1 2) 0x80 (some 0xF7) = some (some 1, 1, 0) := by decide
theorem test_cgtFI_fraction : after c32 (.cgtFI 3 1 2) 0x0002C000 (some 0x00000005) = some (some 1, 1, 0) := by decide
theorem test_cleFI_fraction : after c32 (.cleFI 3 1 2) 0x0002C000 (some 0x00000005) = some (some 0, 1, 0) := by decide
theorem test_cleFI_equal : after c32 (.cleFI 3 1 2) 0x00028000 (some 0x00000005) = some (some 1, 1, 0) := by decide
theorem test_cgeFI_negative : after c32 (.cgeFI 3 1 2) 0xFFFFC000 (some 0xFFFFFFFF) = some (some 1, 1, 0) := by decide
theorem test_source_is_destination :
    seen (step ⟨c32, blockOf c32 [0x13332000#32] [(3, 0x8000), (2, 0x10000)]⟩) = some (some 0x4000, 1, 0) := by decide

/-! ## Faults and their order (section 2.6) -/

theorem test_unwritten_ra : ended c32 0x02310000#32 [] = some (.fault, 2, 0, 0x02310000#32) := by decide
theorem test_unwritten_rb_first : ended c32 0x13312000#32 [(1, 0x8000)] = some (.fault, 2, 0, 0x13312000#32) := by decide
theorem test_unwritten_ra_first : ended c32 0x13312000#32 [(2, 0)] = some (.fault, 2, 0, 0x13312000#32) := by decide
theorem test_zero_divisor :
    ended c32 0x13312000#32 [(1, 0x8000), (2, 0)] = some (.fault, 3, 0, 0x13312000#32) := by decide
theorem test_illegal_first :
    ended c32 0x2E312000#32 [] = some (.fault, 1, 0, 0x2E312000#32) ∧
      ended c32 0x10123001#32 [(2, 0), (3, 0)] = some (.fault, 1, 0, 0x10123001#32) := by decide
theorem test_stopped :
    step ⟨c32, (blockOf c32 [0x00000000#32] []).takeFault .illegalInstruction⟩ = .fault (.stopped 1#32 0#32 0#32) := rfl

/-! ## Reset, CFG, end of a run, host (section 2.8) -/

theorem test_cfg_values :
    c32.register = 0x00000F20#32 ∧ c64.register = 0x00002040#32 ∧ c8.register = 0x00000408#32 := by decide
theorem test_reset_registers : ∀ r, State.reset.block.readReg r = none := by decide
theorem test_empty_program :
    step ⟨c32, ((State.resetOf c32).block.applyStart)⟩ =
      .next ⟨c32, { (State.resetOf c32).block with rs := .done }⟩ := rfl
theorem test_write_refused_when_done :
    hostAct c32 (.writeReg 1 5#32) { (State.resetOf c32).block with rs := .done } =
      ({ (State.resetOf c32).block with rs := .done }, .refused) := by decide
theorem test_reset_clears_fault :
    hostAct c32 .reset ((blockOf c32 [0#32] [(1, 5)]).takeFault .illegalInstruction) =
      ({ (State.resetOf c32).block with program := [0#32] }, .nothing) := by decide
theorem test_with_fetch_word :
    (match step (State.reset.withFetchWord 32 0x01400000) with
      | .next t => t.block.pc
      | .fault _ => 0#32
      | .refused _ => 0#32) = 1#32 := by decide

/-! ## Assembler and encoder (sections 2.1 and 2.7) -/

theorem test_assemble_compound : assembleWord "DIV.FI x2, x5" = some 0x17225000#32 := by decide
theorem test_assemble_mirrored :
    assembleWord "CGE.IF x3, x2, x1" = some 0x2C312000#32 ∧ assembleWord "CEQ.IF x3, x2, x1" = some 0x28312000#32 := by
  decide
theorem test_encoder_drops_digits : enc 15 12345 = 4043 ∧ enc 7 125 = 15 ∧ enc 2 25 = 0 := by decide
theorem test_encoder_largest : enc 63 18446744073709551615 = 1701411834604692315 := by decide

/-! ## Witnesses: configuration, value, reset -/

theorem test_witness_ElaborationAcceptsExactlyLegalParameters :
    elaborate 32 15 = some State.reset ∧ (elaborate 8 7).isSome = true ∧ (elaborate 64 0).isSome = true := by decide
theorem test_witness_TraitTableRowsAndRanges :
    (-2 ^ (Width.w8.bits - 1) ≤ (-128 : Int) ∧ (127 : Int) ≤ 2 ^ (Width.w8.bits - 1) - 1 ∧ 255 ≤ 2 ^ Width.w8.bits - 1) ∧
      sint (wrap Width.w8.bits (-128)) = -128 ∧ sint (wrap Width.w8.bits 127) = 127 ∧
      uint (wrap Width.w8.bits ((255 : Nat) : Int)) = 255 := by decide
theorem test_witness_CfgRegisterIsHardwired : step State.reset = .next State.reset := rfl
theorem test_witness_ValueIsIntegerFieldPlusFraction : c8low.P = c8low.W - 1 ∧ c64int.P = 0 := by decide
theorem test_witness_ValueRangeAndUniquePatterns :
    denote c8 0x10#8 = denote c8 0x10#8 ∧ denote c8 0#8 = 0 := by
  refine ⟨rfl, ?_⟩
  show ((0 : Int) : Rat) / 2 ^ 4 = 0
  simp

/-! ## Witnesses: the step -/

theorem test_witness_StepRunsTheDecodedInstruction :
    (blockOf c32 [0x01400000#32] []).rs = .run ∧ (blockOf c32 [0x01400000#32] []).wordAtPc = some 0x01400000#32 ∧
      decode 0x01400000#32 = .ok (.new 4) := by decide
theorem test_witness_StepFollowsTheRun :
    ((blockOf c32 [] []).rs = .run ∧ (blockOf c32 [] []).pc.toNat = (blockOf c32 [] []).program.length) ∧
      (blockOf c32 [0x01400000#32] []).program[(blockOf c32 [0x01400000#32] []).pc.toNat]? = some 0x01400000#32 ∧
      decode 0x01400000#32 = .ok (.new 4) ∧ decode 0x01480000#32 = .error .mustBeZero := by decide
theorem test_witness_IllegalWordsFault :
    (blockOf c32 [0x27000000#32] []).rs = .run ∧ (blockOf c32 [0x27000000#32] []).wordAtPc = some 0x27000000#32 ∧
      (∀ row ∈ opcodeRows, row.1 ≠ opcodeField 0x27000000#32) ∧
      (∃ row ∈ opcodeRows, row.1 = opcodeField 0x10123001#32 ∧ mustBeZeroOk row.2 0x10123001#32 = false) := by decide
theorem test_witness_NothingExecutesOutsideRun :
    (State.resetOf c32).block.rs = .idle ∧ (blockOf c32 [] []).endRun.rs = .done ∧
      ((blockOf c32 [0#32] []).takeFault .divZero).rs = .fault := by decide
theorem test_witness_FaultEntryRecordsCausePcAndWord : (blockOf c32 [7#32] []).wordAtPc = some 7#32 := by decide

/-! ## Witnesses: the instructions. A format DA rule needs a written and an unwritten `ra`; a format DAB rule both
operands written, and either one unwritten. -/

theorem test_witness_MovCopiesThePattern :
    (blockOf c32 [] [(1, 5)]).readReg 1 = some 5#c32.W ∧ (blockOf c32 [] []).readReg 1 = none := by decide
theorem test_witness_FromIntUpscales :
    (blockOf c32 [] [(1, 5)]).readReg 1 = some 5#c32.W ∧ (blockOf c32 [] []).readReg 1 = none := by decide
theorem test_witness_ToIntTakesTheFloor :
    (blockOf c32 [] [(1, 5)]).readReg 1 = some 5#c32.W ∧ (blockOf c32 [] []).readReg 1 = none := by decide
theorem test_witness_FromPairAddsTheFraction :
    (blockOf c32 [] [(1, 5), (2, 6)]).readReg 1 = some 5#c32.W ∧ (blockOf c32 [] [(1, 5), (2, 6)]).readReg 2 = some 6#c32.W ∧
      (blockOf c32 [] [(1, 5)]).readReg 2 = none ∧ (blockOf c32 [] [(2, 6)]).readReg 1 = none := by decide
theorem test_witness_AddFFAndSubFFWrap :
    (blockOf c32 [] [(1, 5), (2, 6)]).readReg 1 = some 5#c32.W ∧ (blockOf c32 [] [(1, 5), (2, 6)]).readReg 2 = some 6#c32.W ∧
      (blockOf c32 [] [(1, 5)]).readReg 2 = none ∧ (blockOf c32 [] [(2, 6)]).readReg 1 = none := by decide
theorem test_witness_MulFFShiftsTheWidenedProduct :
    (blockOf c32 [] [(1, 5), (2, 6)]).readReg 1 = some 5#c32.W ∧ (blockOf c32 [] [(1, 5), (2, 6)]).readReg 2 = some 6#c32.W ∧
      (blockOf c32 [] [(1, 5)]).readReg 2 = none ∧ (blockOf c32 [] [(2, 6)]).readReg 1 = none := by decide
theorem test_witness_AddFIAndSubFIUseTheRawInteger :
    (blockOf c32 [] [(1, 5), (2, 6)]).readReg 1 = some 5#c32.W ∧ (blockOf c32 [] [(1, 5), (2, 6)]).readReg 2 = some 6#c32.W ∧
      (blockOf c32 [] [(1, 5)]).readReg 2 = none ∧ (blockOf c32 [] [(2, 6)]).readReg 1 = none := by decide
theorem test_witness_MulFIScalesTheRawPattern :
    (blockOf c32 [] [(1, 5), (2, 6)]).readReg 1 = some 5#c32.W ∧ (blockOf c32 [] [(1, 5), (2, 6)]).readReg 2 = some 6#c32.W ∧
      (blockOf c32 [] [(1, 5)]).readReg 2 = none ∧ (blockOf c32 [] [(2, 6)]).readReg 1 = none := by decide
theorem test_witness_SubIFUpscalesTheInteger :
    (blockOf c32 [] [(1, 5), (2, 6)]).readReg 1 = some 5#c32.W ∧ (blockOf c32 [] [(1, 5), (2, 6)]).readReg 2 = some 6#c32.W ∧
      (blockOf c32 [] [(1, 5)]).readReg 2 = none ∧ (blockOf c32 [] [(2, 6)]).readReg 1 = none := by decide
theorem test_witness_FixedComparisonsCompareSignedPatterns :
    (blockOf c32 [] [(1, 5), (2, 6)]).readReg 1 = some 5#c32.W ∧ (blockOf c32 [] [(1, 5), (2, 6)]).readReg 2 = some 6#c32.W ∧
      (blockOf c32 [] [(1, 5)]).readReg 2 = none ∧ (blockOf c32 [] [(2, 6)]).readReg 1 = none := by decide
theorem test_witness_IntegerComparisonsWidenTheInteger :
    (blockOf c32 [] [(1, 5), (2, 6)]).readReg 1 = some 5#c32.W ∧ (blockOf c32 [] [(1, 5), (2, 6)]).readReg 2 = some 6#c32.W ∧
      (blockOf c32 [] [(1, 5)]).readReg 2 = none ∧ (blockOf c32 [] [(2, 6)]).readReg 1 = none := by decide
theorem test_witness_DivFFDividesTheWidenedDividend :
    (bothWritten c64 0x80000000 0xFFFFFFFFFFFFFFFF ∧ ¬ sint 0xFFFFFFFFFFFFFFFF#64 = 0 ∧
        sintN c64.WW (sint 0x80000000#64 * 2 ^ c64.P) = -2 ^ (c64.WW - 1) ∧ sint 0xFFFFFFFFFFFFFFFF#64 = -1) ∧
      (bothWritten c64 5 0 ∧ sint 0#64 = 0) ∧
      (bothWritten c64 5 6 ∧ ¬ sint 6#64 = 0 ∧
        ¬ (sintN c64.WW (sint 5#64 * 2 ^ c64.P) = -2 ^ (c64.WW - 1) ∧ sint 6#64 = -1)) ∧
      (blockOf c64 [] [(1, 5)]).readReg 2 = none := by decide
theorem test_witness_DivFIDividesTheRawPattern :
    (bothWritten c8 0x80 0xFF ∧ ¬ sint 0xFF#8 = 0 ∧ sint 0x80#8 = -2 ^ (c8.W - 1) ∧ sint 0xFF#8 = -1) ∧
      (bothWritten c8 0x80 0 ∧ sint 0#8 = 0) ∧
      (bothWritten c8 0x81 0xFF ∧ ¬ sint 0xFF#8 = 0 ∧ ¬ (sint 0x81#8 = -2 ^ (c8.W - 1) ∧ sint 0xFF#8 = -1)) ∧
      (blockOf c8 [] [(2, 6)]).readReg 1 = none := by decide
theorem test_witness_DivIFUpscalesTheInteger :
    (bothWritten c64int 0x8000000000000000 0xFFFFFFFFFFFFFFFF ∧ ¬ sint 0xFFFFFFFFFFFFFFFF#64 = 0 ∧
        sintN c64int.WW (sint (wrap c64int.W (sint 0x8000000000000000#64 * 2 ^ c64int.P)) * 2 ^ c64int.P) =
          -2 ^ (c64int.WW - 1) ∧ sint 0xFFFFFFFFFFFFFFFF#64 = -1) ∧
      (bothWritten c64 1 0 ∧ sint 0#64 = 0) ∧
      (bothWritten c64 1 6 ∧ ¬ sint 6#64 = 0 ∧
        ¬ (sintN c64.WW (sint (wrap c64.W (sint 1#64 * 2 ^ c64.P)) * 2 ^ c64.P) = -2 ^ (c64.WW - 1) ∧ sint 6#64 = -1)) ∧
      (blockOf c64 [] [(1, 1)]).readReg 2 = none := by decide

/-! ## Witnesses: faults and frames -/

theorem test_witness_UnwrittenOperandsFault :
    (∃ r ∈ (Instr.addFF 3 1 2).sources, (blockOf c32 [] [(1, 5)]).readReg r = none) ∧
      (∃ r ∈ (Instr.addFF 3 1 2).sources, (blockOf c32 [] [(2, 5)]).readReg r = none) := by decide
theorem test_witness_ZeroDivisorFaults :
    (blockOf c8 [] [(1, 0x80), (2, 0)]).readReg 1 = some 0x80#c8.W ∧
      (blockOf c8 [] [(1, 0x80), (2, 0)]).readReg 2 = some 0#c8.W := by decide
theorem test_witness_QuotientOverflowFaults :
    ((blockOf c8 [] [(1, 0x80), (2, 0xFF)]).readReg 1 = some (BitVec.intMin c8.W) ∧
        (blockOf c8 [] [(1, 0x80), (2, 0xFF)]).readReg 2 = some (wrap c8.W (-1))) ∧
      ((blockOf c64 [] [(1, 0x80000000), (2, 0xFFFFFFFFFFFFFFFF)]).readReg 2 = some (wrap c64.W (-1)) ∧
        sintN c64.WW (sint 0x80000000#64 * 2 ^ c64.P) = -2 ^ (c64.WW - 1)) ∧
      (bothWritten c64int 0x8000000000000000 0xFFFFFFFFFFFFFFFF ∧
        sintN c64int.WW (sint (wrap c64int.W (sint 0x8000000000000000#64 * 2 ^ c64int.P)) * 2 ^ c64int.P) =
          -2 ^ (c64int.WW - 1)) ∧
      c32.W ≤ 32 := by decide
theorem test_witness_FaultChecksComeInOrder :
    (blockOf c32 [0x13312000#32] []).rs = .run ∧ (blockOf c32 [0x13312000#32] []).wordAtPc = some 0x13312000#32 ∧
      decode 0x13312000#32 = .ok (.divFF 3 1 2) ∧ decode 0x13312001#32 = .error .mustBeZero ∧
      (∃ r ∈ (Instr.divFF 3 1 2).sources, (blockOf c32 [0x13312000#32] [(2, 0)]).readReg r = none) ∧
      (blockOf c32 [0x13312000#32] [(1, 5), (2, 0)]).readReg 1 = some 5#c32.W ∧
      (blockOf c32 [0x13312000#32] [(1, 5), (2, 0)]).readReg 2 = some 0#c32.W ∧
      (∀ r ∈ (Instr.divFF 3 1 2).sources, (blockOf c32 [0x13312000#32] [(1, 5), (2, 0)]).readReg r ≠ none) := by decide
theorem test_witness_FaultChecksComeInOrder_overflow :
    (blockOf c8 [0x17312000#32] [(1, 0x80), (2, 0xFF)]).wordAtPc = some 0x17312000#32 ∧
      decode 0x17312000#32 = .ok (.divFI 3 1 2) ∧
      step ⟨c8, blockOf c8 [0x17312000#32] [(1, 0x80), (2, 0xFF)]⟩ =
        .next ⟨c8, (blockOf c8 [0x17312000#32] [(1, 0x80), (2, 0xFF)]).takeFault .divOverflow⟩ :=
  ⟨by decide, by decide, rfl⟩
theorem test_witness_ArithmeticOverflowNeverFaults :
    isDivision (.mulFF 3 1 2) = false ∧
      (∀ r ∈ (Instr.mulFF 3 1 2).sources, (blockOf c64 [] [(1, 2 ^ 63), (2, 2 ^ 63)]).readReg r ≠ none) ∧
      (bothWritten c8 0x80 1 ∧ sint 1#8 ≠ 0 ∧ sint 1#8 ≠ -1) ∧
      (bothWritten c8 0x80 0xFE ∧ sint 0xFE#8 ≠ 0 ∧ sint 0xFE#8 ≠ -1) := by decide
theorem test_witness_ResultDependsOnlyOnOperands :
    (∀ r ∈ (Instr.mov 3 1).sources,
        (blockOf c8 [0#32] [(1, 5)]).readReg r = (blockOf c8 [] [(1, 5), (2, 6), (3, 7)]).readReg r) ∧
      exec (.mov 3 1) ⟨c8, blockOf c8 [0#32] [(1, 5)]⟩ = .next ⟨c8, (blockOf c8 [0#32] [(1, 5)]).complete 3 5#8⟩ ∧
      exec (.mov 3 1) ⟨c8, blockOf c8 [] [(1, 5), (2, 6), (3, 7)]⟩ =
        .next ⟨c8, (blockOf c8 [] [(1, 5), (2, 6), (3, 7)]).complete 3 5#8⟩ := ⟨by decide, rfl, rfl⟩

/-! ## Witnesses: encoding and pseudo-instructions -/

theorem test_witness_EncodeOfDecodeIsTheWord : decode 0x2DFFF000#32 = .ok (.cgeFI 15 15 15) := by decide
theorem test_witness_DecodeAcceptsExactlyTheOpcodeRows :
    ∃ r ∈ opcodeRows, rowMatches r 0x10123000#32 = true := by decide
theorem test_witness_ComparisonOpcodesFollowTheirStructure :
    (0x20#8 ≤ opcodeField 0x20000000#32 ∧ opcodeField 0x20000000#32 ≤ 0x2F#8) ∧
      (0x20#8 ≤ opcodeField 0x2F000000#32 ∧ opcodeField 0x2F000000#32 ≤ 0x2F#8) := by decide
theorem test_witness_ByteImagesAreLittleEndian : 3 < 4 ∧ 3 < c32.W / 8 ∧ 0 < c8.W / 8 ∧ 7 < c64.W / 8 := by decide
theorem test_witness_CompoundAndIntegerLeftForms :
    (blockOf c32 [] [(1, 5), (2, 6)]).readReg 1 = some 5#c32.W ∧ (blockOf c32 [] [(1, 5), (2, 6)]).readReg 2 = some 6#c32.W ∧
      seen (exec (.addFF 3 1 2) ⟨c32, blockOf c32 [] [(1, 5), (2, 6)]⟩) = some (some 11, 1, 0) := by decide
theorem test_witness_IntegerLeftComparisonsMirror :
    (blockOf c32 [] [(1, 5), (2, 6)]).readReg 1 = some 5#c32.W ∧
      (blockOf c32 [] [(1, 5), (2, 6)]).readReg 2 = some 6#c32.W := by decide

/-! ## Witnesses: arithmetic -/

theorem test_witness_AccumulatorIsExactBelow64 : c32.W ≤ 32 ∧ c8low.W ≤ 32 ∧ c64.W = 64 := by decide
theorem test_witness_ToIntIsTheIntegerField :
    ((-2 ^ (c32.W - 1 - c32.P) ≤ (-65536 : Int)) ∧ ((-65536 : Int) < 2 ^ (c32.W - 1 - c32.P))) ∧
      ((-2 ^ (c32.W - 1 - c32.P) ≤ (65535 : Int)) ∧ ((65535 : Int) < 2 ^ (c32.W - 1 - c32.P))) := by decide
theorem test_witness_EncoderFollowsItsSteps :
    digitBudget 15 < ndigits 12345 ∧ ndigits 5 < digitBudget 15 ∧ ndigits 5000 = digitBudget 15 ∧
      ndigits 1 = digitBudget 1 := by decide
theorem test_witness_DigitBudgetTable : digitBudget 1 = 1 ∧ digitBudget 4 = 1 := by decide
theorem test_witness_EncoderProperties :
    2 ≤ digitBudget 7 ∧ normalise (digitBudget 4) 1 ≠ normalise (digitBudget 4) 9 ∧
      normalise (digitBudget 1) 1 ≤ normalise (digitBudget 1) 9 := by decide
theorem test_witness_ComparisonsCompareTheReals : c32.W ≤ 32 ∧ c8.W ≤ 32 := by decide
theorem test_witness_DivisionThenMultiplicationIsWithinAnUlp :
    c32.W ≤ 32 ∧ sint 0x2666#32 ≠ 0 ∧ |sint 0x2666#32| ≤ 2 ^ c32.P ∧
      divValue c32 (sint 0x8000#32) (sint 0x2666#32) = .ok 0x1AAAF#32 ∧
      sint 0x1AAAF#32 = tdiv (sint 0x8000#32 * 2 ^ c32.P) (sint 0x2666#32) := by
  refine ⟨by decide, by decide, by decide, rfl, by decide⟩

/-! ## Witnesses: the whole machine -/

theorem test_witness_EveryStepKeepsTheInvariant :
    State.Inv ⟨c32, blockOf c32 [0#32] []⟩ ∧
      step ⟨c32, blockOf c32 [0#32] []⟩ = .next ⟨c32, (blockOf c32 [0#32] []).takeFault .illegalInstruction⟩ := ⟨by decide, rfl⟩
theorem test_witness_ReachableStatesMeetTheInvariant : Reachable c32 (State.resetOf c32) := .reset
theorem test_witness_EveryRunEndsWithinItsLength :
    (blockOf c32 [] []).Inv ∧ (blockOf c32 [] []).rs = .run ∧
      (blockOf c8 [0x01400000#32] []).Inv ∧ (blockOf c8 [0x01400000#32] []).rs = .run := by decide
theorem test_witness_RunStateMovesOnlyAsStated :
    (step State.reset = .next State.reset ∧ State.reset.block.rs ≠ .run) ∧
      (step ⟨c8, blockOf c8 [] []⟩ = .next ⟨c8, (blockOf c8 [] []).endRun⟩ ∧ (blockOf c8 [] []).rs = .run) ∧
      HostCmd.readRs (w := 8) ≠ .reset ∧
      ¬ (HostCmd.start (w := 8) = .start ∧ (blockOf c8 [] []).rs = .idle) ∧
      (State.resetOf c8).block.rs = .idle := ⟨⟨rfl, by decide⟩, ⟨rfl, by decide⟩, by decide⟩
theorem test_witness_HostDisturbsNoRunButByReset :
    (blockOf c8 [] []).rs ≠ .idle ∧ (blockOf c8 [] []).endRun.rs ≠ .idle ∧ HostCmd.start (w := 8) ≠ .reset := by decide
theorem test_witness_HostInteractionsFollowTheTable :
    ([] : List OpWord).length ≤ 2 ^ 32 - 1 ∧ (State.resetOf c8).block.rs = .idle ∧ (blockOf c8 [] []).rs ≠ .idle ∧
      (blockOf c8 [] [(1, 5)]).endRun.rs ≠ .run ∧ (blockOf c8 [] [(1, 5)]).endRun.readReg 1 = some 5#c8.W ∧
      (blockOf c8 [] []).endRun.readReg 1 = none ∧ (blockOf c8 [] []).rs = .run := by decide

theorem test_witness_InterleavedInstancesRunAsAlone :
    (([⟨c8, blockOf c8 [] []⟩, State.reset] : Instances)[0]? = some ⟨c8, blockOf c8 [] []⟩ ∧
        Host.Core.run core ([1, 0, 1].count 0) ⟨c8, blockOf c8 [] []⟩ = .next ⟨c8, (blockOf c8 [] []).endRun⟩) ∧
      (([State.reset, ⟨c8, blockOf c8 [0#32] []⟩] : Instances)[1]? = some ⟨c8, blockOf c8 [0#32] []⟩ ∧
        (blockOf c8 [0#32] []).Inv ∧ (blockOf c8 [0#32] []).rs = .run ∧
        (blockOf c8 [0#32] []).program.length - (blockOf c8 [0#32] []).pc.toNat + 1 ≤ [1, 0, 1].count 1) :=
  ⟨⟨rfl, rfl⟩, rfl, by decide⟩

end Sys2Proof.Tests
end

section
/-! Elaboration (00_scope.md R1 to R3): what it answers, said once for the width, the configuration and the instance. -/

namespace Sys2Proof

/-- The width found for a number of bits has exactly that many: none is substituted (R2). -/
theorem Width.ofBits_eq_some_iff {n : Nat} {w : Width} : Width.ofBits n = some w ↔ w.bits = n := by
  constructor
  · intro h
    unfold Width.ofBits at h
    split at h <;> cases h <;> rfl
  · rintro rfl
    cases w <;> rfl

/-- The first column of the trait table (R14). -/
theorem Width.exists_bits_eq_iff {n : Nat} : (∃ w : Width, w.bits = n) ↔ n = 8 ∨ n = 16 ∨ n = 32 ∨ n = 64 := by
  constructor
  · rintro ⟨w, rfl⟩
    cases w <;> decide
  · rintro (rfl | rfl | rfl | rfl)
    · exact ⟨.w8, rfl⟩
    · exact ⟨.w16, rfl⟩
    · exact ⟨.w32, rfl⟩
    · exact ⟨.w64, rfl⟩

/-- Elaboration answers the one configuration with the asked parameters, if there is one (R1 to R3). -/
theorem Config.elaborate_eq_some_iff {W P : Nat} {c : Config} :
    Config.elaborate W P = some c ↔ c.W = W ∧ c.P = P := by
  constructor
  · intro h
    unfold Config.elaborate at h
    split at h
    case h_1 => cases h
    case h_2 width hwidth =>
      split at h
      · cases h
        exact ⟨Width.ofBits_eq_some_iff.mp hwidth, rfl⟩
      · cases h
  · rintro ⟨rfl, rfl⟩
    have hwidth : Width.ofBits c.W = some c.width := Width.ofBits_eq_some_iff.mpr rfl
    simp [Config.elaborate, hwidth]

/-- A pair of parameters has a configuration exactly when the width is listed and the precision is below it (R1). -/
theorem Config.exists_parameters_iff {W P : Nat} :
    (∃ c : Config, c.W = W ∧ c.P = P) ↔ (W = 8 ∨ W = 16 ∨ W = 32 ∨ W = 64) ∧ P < W := by
  constructor
  · rintro ⟨c, rfl, rfl⟩
    exact ⟨Width.exists_bits_eq_iff.mp ⟨c.width, rfl⟩, c.prec.isLt⟩
  · rintro ⟨hW, hP⟩
    obtain ⟨w, rfl⟩ := Width.exists_bits_eq_iff.mpr hW
    exact ⟨⟨w, ⟨P, hP⟩⟩, rfl, rfl⟩

namespace Machine

/-- An instance is the reset state of the configuration with the asked parameters (R1 to R3; assumption 3). -/
theorem elaborate_eq_some_iff {W P : Nat} {s : State} :
    elaborate W P = some s ↔ ∃ c : Config, (c.W = W ∧ c.P = P) ∧ State.resetOf c = s := by
  simp only [elaborate, Option.map_eq_some_iff, Config.elaborate_eq_some_iff]

/-- An instance exists exactly for a listed width and a precision below it (R2, R3). -/
theorem elaborate_isSome_iff {W P : Nat} :
    (elaborate W P).isSome = true ↔ (W = 8 ∨ W = 16 ∨ W = 32 ∨ W = 64) ∧ P < W := by
  rw [← Config.exists_parameters_iff, elaborate, Option.isSome_map, Option.isSome_iff_exists]
  simp only [Config.elaborate_eq_some_iff]

/-- Settles O1: existence is `elaborate_isSome_iff`, and the parameters are those of the reset state elaboration gives. -/
theorem elaborationAcceptsExactlyLegalParameters : Obligations.ElaborationAcceptsExactlyLegalParameters := by
  unfold Obligations.ElaborationAcceptsExactlyLegalParameters
  intro W P
  refine ⟨elaborate_isSome_iff, fun s hs => ?_⟩
  obtain ⟨c, hparams, rfl⟩ := elaborate_eq_some_iff.mp hs
  exact hparams

end Machine

end Sys2Proof
end

section
/-! What one instruction, one step and one interaction of the host can do to a block (10_state.md R20 to R24), each said
once; the invariant of the block and the moves of the run state follow from these cases. -/

namespace Sys2Proof.Machine

section Blocks

variable {w : Nat}

/-! ### Completing and taking a fault, as relations between two blocks -/

theorem Block.sameRegsBut_of_readReg {b t : Block w} {rd : Reg} {r : Option (BitVec w)}
    (h : ∀ q, t.readReg q = if q = rd then r else b.readReg q) : t.readReg rd = r ∧ b.sameRegsBut rd t :=
  ⟨by rw [h, if_pos rfl], fun q hq => by rw [h, if_neg hq]⟩

theorem Block.completedTo_complete (b : Block w) (rd : Reg) (v : BitVec w) :
    b.CompletedTo rd (some v) (b.complete rd v) := by
  obtain ⟨hrd, hothers⟩ := Block.sameRegsBut_of_readReg (b.readReg_complete rd · v)
  exact ⟨hrd, hothers, rfl, rfl, rfl, rfl, rfl, rfl⟩

theorem Block.completedTo_markUnwritten_advance (b : Block w) (rd : Reg) :
    b.CompletedTo rd none (b.markUnwritten rd).advance := by
  obtain ⟨hrd, hothers⟩ := Block.sameRegsBut_of_readReg (t := (b.markUnwritten rd).advance)
    (b.readReg_markUnwritten rd)
  exact ⟨hrd, hothers, rfl, rfl, rfl, rfl, rfl, rfl⟩

theorem Block.faultedTo_takeFault (b : Block w) (k : Cause) : b.FaultedTo k (b.takeFault k) :=
  ⟨b.readReg_takeFault k, rfl, rfl, rfl, rfl, rfl, fun _ hv => b.takeFault_fword k hv⟩

/-- Fault entry leaves a cause that the host does not read as 0 (R160, R166). -/
theorem Block.readFcause_takeFault_ne_zero (b : Block w) (k : Cause) : (b.takeFault k).readFcause ≠ 0#32 := by
  show zext 32 k.code ≠ 0#32
  cases k <;> decide

end Blocks

/-! ### The 27 instructions -/

section Instructions

variable {i : Instr} {c : Config} {b : Block c.W}

theorem faults_of_takeFault {k : Cause} (h : exec i ⟨c, b⟩ = .next ⟨c, b.takeFault k⟩) : Faults i c b k :=
  ⟨_, h, b.faultedTo_takeFault k⟩

/-- A format DA instruction with a value for every operand completes or takes `UNINIT_READ`. -/
theorem completes_or_uninit_of_withRa {ra : Reg} {f : BitVec c.W → BitVec c.W}
    (h : exec i ⟨c, b⟩ = .next ⟨c, b.withRa ra fun a => Block.complete i.dest (f a)⟩) :
    (∃ r, Completes i c b i.dest r) ∨ exec i ⟨c, b⟩ = .next ⟨c, b.takeFault .uninitRead⟩ := by
  rcases b.withRa_cases ra (fun a => Block.complete i.dest (f a)) with ⟨a, -, e⟩ | ⟨-, e⟩ <;> rw [e] at h
  · exact .inl ⟨_, _, h, b.completedTo_complete i.dest (f a)⟩
  · exact .inr h

/-- A format DAB instruction with a value for all operands completes or takes `UNINIT_READ`. -/
theorem completes_or_uninit_of_withRaRb {ra rb : Reg} {f : BitVec c.W → BitVec c.W → BitVec c.W}
    (h : exec i ⟨c, b⟩ = .next ⟨c, b.withRaRb ra rb fun x y => Block.complete i.dest (f x y)⟩) :
    (∃ r, Completes i c b i.dest r) ∨ exec i ⟨c, b⟩ = .next ⟨c, b.takeFault .uninitRead⟩ := by
  rcases b.withRaRb_cases ra rb (fun x y => Block.complete i.dest (f x y)) with ⟨x, y, -, -, e⟩ | ⟨-, e⟩ <;>
    rw [e] at h
  · exact .inl ⟨_, _, h, b.completedTo_complete i.dest (f x y)⟩
  · exact .inr h

/-- A format DAB instruction whose value step may fail completes, takes `UNINIT_READ`, or takes the fault of that
failure. -/
theorem completes_or_faults_of_settle {ra rb : Reg} {f : BitVec c.W → BitVec c.W → Except Cause (BitVec c.W)}
    (h : exec i ⟨c, b⟩ = .next ⟨c, b.withRaRb ra rb fun x y => Block.settle i.dest (f x y)⟩) :
    (∃ r, Completes i c b i.dest r) ∨ exec i ⟨c, b⟩ = .next ⟨c, b.takeFault .uninitRead⟩ ∨
      ∃ x y k, f x y = .error k ∧ exec i ⟨c, b⟩ = .next ⟨c, b.takeFault k⟩ := by
  rcases b.withRaRb_cases ra rb (fun x y => Block.settle i.dest (f x y)) with ⟨x, y, -, -, e⟩ | ⟨-, e⟩ <;>
    rw [e] at h
  · cases hf : f x y with
    | ok v =>
      rw [hf, Block.settle_ok] at h
      exact .inl ⟨_, _, h, b.completedTo_complete i.dest v⟩
    | error k =>
      rw [hf, Block.settle_error] at h
      exact .inr (.inr ⟨x, y, k, hf, h⟩)
  · exact .inr (.inl h)

end Instructions

/-- DIV.FF and DIV.IF fail with the causes of R163 and R164 only. -/
theorem divValue_error {c : Config} {a d : Int} {k : Cause} (h : divValue c a d = .error k) :
    k = .divZero ∨ k = .divOverflow := by
  rcases divValue_cases c a d with ⟨-, e⟩ | ⟨-, -, e⟩ | ⟨-, e⟩ <;> rw [e] at h <;> cases h
  · exact .inl rfl
  · exact .inr rfl

/-- DIV.FI fails with the causes of R163 and R164 only. -/
theorem unscaleValue_error {c : Config} {a d : Int} {k : Cause} (h : unscaleValue c a d = .error k) :
    k = .divZero ∨ k = .divOverflow := by
  rcases unscaleValue_cases c a d with ⟨-, e⟩ | ⟨-, -, e⟩ | ⟨-, e⟩ <;> rw [e] at h <;> cases h
  · exact .inl rfl
  · exact .inr rfl

/-- Everything an instruction can do (R46, R162 to R164): it completes, it takes `UNINIT_READ`, or it is a division and
takes one of the two faults of a division. -/
theorem exec_cases (i : Instr) (c : Config) (b : Block c.W) :
    (∃ r, Completes i c b i.dest r) ∨ exec i ⟨c, b⟩ = .next ⟨c, b.takeFault .uninitRead⟩ ∨
      (isDivision i = true ∧
        ∃ k, (k = .divZero ∨ k = .divOverflow) ∧ exec i ⟨c, b⟩ = .next ⟨c, b.takeFault k⟩) := by
  cases i
  case new rd => exact .inl ⟨none, _, rfl, b.completedTo_markUnwritten_advance rd⟩
  case mov | fromInt | toInt => exact (completes_or_uninit_of_withRa rfl).imp_right .inl
  case divFF | divIF =>
    exact (completes_or_faults_of_settle rfl).imp_right <| .imp_right fun ⟨_, _, k, hf, h⟩ =>
      ⟨rfl, k, divValue_error hf, h⟩
  case divFI =>
    exact (completes_or_faults_of_settle rfl).imp_right <| .imp_right fun ⟨_, _, k, hf, h⟩ =>
      ⟨rfl, k, unscaleValue_error hf, h⟩
  all_goals exact (completes_or_uninit_of_withRaRb rfl).imp_right .inl

/-- Settles O33: `exec_cases`, with fault entry read as the relation `Faults`. -/
theorem everyInstructionCompletesOrFaults : Obligations.EveryInstructionCompletesOrFaults := by
  unfold Obligations.EveryInstructionCompletesOrFaults
  intro i c b
  rcases exec_cases i c b with h | h | ⟨hdiv, k, rfl | rfl, h⟩
  · exact .inl h
  · exact .inr (.inl (faults_of_takeFault h))
  · exact .inr (.inr ⟨hdiv, .inl (faults_of_takeFault h)⟩)
  · exact .inr (.inr ⟨hdiv, .inr (faults_of_takeFault h)⟩)

/-! ### The step -/

/-- Every next state a step can answer (R22, R183): a block at rest stays as it is, a run ends at `pc = L`, and below it
the instruction at pc completes or takes a fault. -/
theorem step_next_cases {c : Config} {b : Block c.W} {t : State} (h : step ⟨c, b⟩ = .next t) :
    ((b.rs = .idle ∨ b.rs = .done) ∧ t = ⟨c, b⟩) ∨
    (b.rs = .run ∧ b.pc.toNat = b.program.length ∧ t = ⟨c, b.endRun⟩) ∨
    (b.rs = .run ∧ b.pc.toNat < b.program.length ∧
      ∃ (rd : Reg) (r : Option (BitVec c.W)) (b' : Block c.W), b.CompletedTo rd r b' ∧ t = ⟨c, b'⟩) ∨
    (b.rs = .run ∧ b.pc.toNat < b.program.length ∧
      ∃ (v : OpWord) (k : Cause), b.wordAtPc = some v ∧ t = ⟨c, b.takeFault k⟩) := by
  rcases step_cases c b with ⟨hrs, e⟩ | ⟨-, e⟩ | ⟨hrs, hpc, e⟩ | ⟨-, -, e⟩ | ⟨v, i, hrs, hv, hpc, -, e⟩ |
    ⟨v, _, hrs, hv, hpc, -, e⟩ <;> rw [e] at h
  · cases h; exact .inl ⟨hrs, rfl⟩
  · cases h
  · cases h; exact .inr (.inl ⟨hrs, hpc, rfl⟩)
  · cases h
  · rcases exec_cases i c b with ⟨r, b', e, hb'⟩ | e | ⟨-, k, -, e⟩ <;> cases e.symm.trans h
    · exact .inr (.inr (.inl ⟨hrs, hpc, i.dest, r, b', hb', rfl⟩))
    · exact .inr (.inr (.inr ⟨hrs, hpc, v, _, hv, rfl⟩))
    · exact .inr (.inr (.inr ⟨hrs, hpc, v, k, hv, rfl⟩))
  · cases h; exact .inr (.inr (.inr ⟨hrs, hpc, v, _, hv, rfl⟩))

/-- No step changes the configuration (R1). -/
theorem step_cfg {s t : State} (h : step s = .next t) : t.cfg = s.cfg := by
  obtain ⟨c, b⟩ := s
  obtain ⟨-, rfl⟩ | ⟨-, -, rfl⟩ | ⟨-, -, _, _, _, -, rfl⟩ | ⟨-, -, _, _, -, rfl⟩ := step_next_cases h <;> rfl

theorem step_of_rest {c : Config} {b : Block c.W} (h : b.rs = .idle ∨ b.rs = .done) :
    step ⟨c, b⟩ = .next ⟨c, b⟩ := by
  rcases h with h | h <;> simp [step, h, Block.rest]

theorem step_of_fault {c : Config} {b : Block c.W} (h : b.rs = .fault) : step ⟨c, b⟩ = .fault b.stop := by
  simp [step, h]

/-- Settles O11: `step_of_rest` and `step_of_fault`, whose stop is the three status registers as the host reads them. -/
theorem nothingExecutesOutsideRun : Obligations.NothingExecutesOutsideRun := by
  unfold Obligations.NothingExecutesOutsideRun
  exact fun _ _ => ⟨step_of_rest, step_of_fault⟩

/-! ### The host's interactions -/

/-- Everything an interaction of the host can do to the block (R185). -/
theorem hostAct_cases (c : Config) (cmd : HostCmd c.W) (b : Block c.W) :
    (cmd = .reset ∧ (hostAct c cmd b).1 = b.applyReset) ∨
    (∃ ws, cmd = .load ws ∧ b.rs = .idle ∧ legalProgram ws = true ∧ (hostAct c cmd b).1 = b.hostLoad ws) ∨
    (∃ i v, cmd = .writeReg i v ∧ b.rs = .idle ∧ (hostAct c cmd b).1 = b.writeReg i v) ∨
    (cmd = .start ∧ b.rs = .idle ∧ (hostAct c cmd b).1 = b.applyStart) ∨
    (cmd ≠ .reset ∧ ¬ (cmd = .start ∧ b.rs = .idle) ∧ (hostAct c cmd b).1 = b) := by
  cases cmd
  case reset => exact .inl ⟨rfl, rfl⟩
  case load ws =>
    by_cases h : b.rs = .idle ∧ legalProgram ws = true
    · obtain ⟨hidle, hws⟩ := h
      exact .inr (.inl ⟨ws, rfl, hidle, hws, congrArg Prod.fst (if_pos ⟨hidle, hws⟩)⟩)
    · exact .inr (.inr (.inr (.inr ⟨by simp, by simp, congrArg Prod.fst (if_neg h)⟩)))
  case writeReg i v => by_cases h : b.rs = .idle <;> simp [hostAct, Block.hostWrite, h]
  case start => by_cases h : b.rs = .idle <;> simp [hostAct, h]
  case readReg i => by_cases h : b.rs = .run <;> simp [hostAct, h]
  all_goals simp [hostAct]

/-- A start in IDLE runs the program from word 0 (R182). -/
theorem Block.applyStart_of_idle {w : Nat} {b : Block w} (h : b.rs = .idle) :
    b.applyStart = { b with rs := .run, pc := 0#32 } := by
  simp [Block.applyStart, h]

/-- Settles O57: the step by `step_next_cases`, the host's interactions by `hostAct_cases`. -/
theorem runStateMovesOnlyAsStated : Obligations.RunStateMovesOnlyAsStated := by
  unfold Obligations.RunStateMovesOnlyAsStated
  refine ⟨?_, ?_, ?_⟩
  · rintro ⟨c, b⟩ t h hrun
    obtain ⟨hrs, -⟩ | ⟨-, hpc, rfl⟩ | ⟨-, hpc, _, _, b', hb', rfl⟩ | ⟨-, hpc, _, k, -, rfl⟩ := step_next_cases h
    · simp_all
    · exact .inl ⟨hpc, rfl⟩
    · obtain ⟨-, -, -, -, hrs, -⟩ := hb'
      exact .inr ⟨hpc, .inl (hrs.trans hrun)⟩
    · exact .inr ⟨hpc, .inr ⟨rfl, b.readFcause_takeFault_ne_zero k⟩⟩
  · rintro ⟨c, b⟩ t h hrun
    obtain ⟨-, rfl⟩ | ⟨hrs, -⟩ | ⟨hrs, -⟩ | ⟨hrs, -⟩ := step_next_cases h
    · rfl
    all_goals exact absurd hrs hrun
  · intro c b cmd
    refine ⟨?_, ?_, fun hreset hstart => ?_⟩
    · rintro rfl
      rfl
    · rintro rfl hidle
      simp [hostAct, hidle, Block.applyStart_of_idle]
    · obtain ⟨rfl, -⟩ | ⟨ws, rfl, -, -, e⟩ | ⟨i, v, rfl, -, e⟩ | ⟨rfl, hidle, -⟩ | ⟨-, -, e⟩ := hostAct_cases c cmd b
      · exact absurd rfl hreset
      · rw [e, Block.hostLoad_rs]
      · rw [e, Block.writeReg_rs]
      · exact absurd ⟨rfl, hidle⟩ hstart
      · rw [e]

/-! ### The invariant -/

section Invariant

variable {w : Nat} {b : Block w}

theorem Block.Inv.endRun (h : b.Inv) (hrs : b.rs = .run) (hpc : b.pc.toNat = b.program.length) :
    b.endRun.Inv := by
  obtain ⟨hlen, hle, -, -, hstatus, -⟩ := h
  exact ⟨hlen, hle, by simp, fun _ => hpc, fun _ => hstatus (by simp [hrs]), by simp⟩

/-- Below the end of the program the pc plus one is again an index or the end: it does not wrap (R21). -/
theorem Block.Inv.completedTo {rd : Reg} {r : Option (BitVec w)} {t : Block w} (h : b.Inv) (hrs : b.rs = .run)
    (hpc : b.pc.toNat < b.program.length) (ht : b.CompletedTo rd r t) : t.Inv := by
  obtain ⟨hlen, -, -, -, hstatus, -⟩ := h
  obtain ⟨-, -, hpc', hprog', hrs', hfcause', hfpc', hfword'⟩ := ht
  have hnext : t.pc.toNat = b.pc.toNat + 1 := by rw [hpc', BitVec.toNat_add]; simp; omega
  have htrs : t.rs = .run := hrs'.trans hrs
  refine ⟨by rw [hprog']; exact hlen, by rw [hnext, hprog']; exact hpc, by simp [htrs], by simp [htrs], fun _ => ?_,
    by simp [htrs]⟩
  rw [hfcause', hfpc', hfword']
  exact hstatus (by simp [hrs])

theorem Block.Inv.takeFault {v : OpWord} (h : b.Inv) (hv : b.wordAtPc = some v) (k : Cause) :
    (b.takeFault k).Inv := by
  obtain ⟨hlen, hle, -⟩ := h
  obtain ⟨hlow, hhigh⟩ := k.code_range
  exact ⟨hlen, hle, by simp, by simp, by simp,
    fun _ => ⟨hlow, hhigh, rfl, hv.trans (congrArg some (b.takeFault_fword k hv).symm)⟩⟩

/-- A block in IDLE meets the invariant when its program fits and its pc and status registers are 0. -/
theorem Block.inv_of_idle (hrs : b.rs = .idle) (hlen : b.program.length ≤ 2 ^ 32 - 1) (hpc : b.pc = 0#32)
    (hstatus : b.fcause = 0#3 ∧ b.fpc = 0#32 ∧ b.fword = 0#32) : b.Inv :=
  ⟨hlen, by simp [hpc], fun _ => hpc, by simp [hrs], fun _ => hstatus, by simp [hrs]⟩

theorem Block.Inv.applyReset (h : b.Inv) : b.applyReset.Inv := by
  obtain ⟨hlen, -⟩ := h
  exact Block.inv_of_idle rfl hlen rfl ⟨rfl, rfl, rfl⟩

theorem Block.Inv.hostLoad {ws : List OpWord} (h : b.Inv) (hrs : b.rs = .idle) (hws : legalProgram ws = true) :
    (b.hostLoad ws).Inv := by
  obtain ⟨-, -, hidle, -, hstatus, -⟩ := h
  exact Block.inv_of_idle hrs (of_decide_eq_true hws) (hidle hrs) (hstatus (by simp [hrs]))

theorem Block.Inv.writeReg (h : b.Inv) (i : Reg) (v : BitVec w) : (b.writeReg i v).Inv := h

theorem Block.Inv.applyStart (h : b.Inv) (hrs : b.rs = .idle) : b.applyStart.Inv := by
  obtain ⟨hlen, -, -, -, hstatus, -⟩ := h
  rw [Block.applyStart_of_idle hrs]
  exact ⟨hlen, by simp, by simp, by simp, fun _ => hstatus (by simp [hrs]), by simp⟩

end Invariant

theorem State.Inv.step {s t : State} (hs : s.Inv) (h : Machine.step s = .next t) : t.Inv := by
  obtain ⟨c, b⟩ := s
  obtain ⟨-, rfl⟩ | ⟨hrs, hpc, rfl⟩ | ⟨hrs, hpc, _, _, b', hb', rfl⟩ | ⟨-, -, v, k, hv, rfl⟩ := step_next_cases h
  · exact hs
  · exact Block.Inv.endRun hs hrs hpc
  · exact Block.Inv.completedTo hs hrs hpc hb'
  · exact Block.Inv.takeFault hs hv k

theorem State.Inv.afterHost {s : State} (hs : s.Inv) (cmd : HostCmd s.cfg.W) : (s.afterHost cmd).Inv := by
  show (hostAct s.cfg cmd s.block).1.Inv
  obtain ⟨-, e⟩ | ⟨ws, -, hrs, hws, e⟩ | ⟨i, v, -, -, e⟩ | ⟨-, hrs, e⟩ | ⟨-, -, e⟩ :=
    hostAct_cases s.cfg cmd s.block <;> rw [e]
  · exact Block.Inv.applyReset hs
  · exact Block.Inv.hostLoad hs hrs hws
  · exact Block.Inv.writeReg hs i v
  · exact Block.Inv.applyStart hs hrs
  · exact hs

theorem State.inv_resetOf (c : Config) : (State.resetOf c).Inv :=
  Block.inv_of_idle rfl (by simp [State.resetOf]) rfl ⟨rfl, rfl, rfl⟩

/-- Settles O54: each of the cases of `step_next_cases` keeps the invariant. -/
theorem everyStepKeepsTheInvariant : Obligations.EveryStepKeepsTheInvariant := by
  unfold Obligations.EveryStepKeepsTheInvariant
  exact fun s t hs h => hs.step h

/-- Settles O55, by induction on reachability. -/
theorem reachableStatesMeetTheInvariant : Obligations.ReachableStatesMeetTheInvariant := by
  unfold Obligations.ReachableStatesMeetTheInvariant
  intro c s hs
  induction hs with
  | reset => exact ⟨State.inv_resetOf c, rfl⟩
  | step _ h ih =>
    obtain ⟨hinv, hcfg⟩ := ih
    exact ⟨hinv.step h, (step_cfg h).trans hcfg⟩
  | host cmd _ ih =>
    obtain ⟨hinv, hcfg⟩ := ih
    exact ⟨hinv.afterHost cmd, hcfg⟩

end Sys2Proof.Machine
end

section
/-! The trait table, the configuration register and the value format (10_state.md R10 to R14, R24). -/

namespace Sys2Proof

theorem Width.bits_le (w : Width) : w.bits ≤ 64 := by cases w <;> decide

theorem Width.isSome_ofBits_iff {n : Nat} :
    (Width.ofBits n).isSome = true ↔ n = 8 ∨ n = 16 ∨ n = 32 ∨ n = 64 := by
  simp only [Option.isSome_iff_exists, Width.ofBits_eq_some_iff, Width.exists_bits_eq_iff]

/-- CFG as a number: its two fields do not overlap and nothing is cut off (R24). -/
theorem Config.register_toNat (c : Config) : c.register.toNat = c.W + c.P * 2 ^ 8 := by
  have hW : c.W ≤ 64 := c.width.bits_le
  have hP : c.P < c.W := c.prec.isLt
  rw [Config.register, BitVec.toNat_ofNat]
  exact Nat.mod_eq_of_lt (by omega)

/-- The fields of CFG (R24). -/
theorem Config.register_fields (c : Config) :
    (c.register.extractLsb' 0 7).toNat = c.W ∧ c.register.extractLsb' 7 1 = 0#1 ∧
      (c.register.extractLsb' 8 6).toNat = c.P ∧ c.register.extractLsb' 14 18 = 0#18 := by
  have hW : c.W ≤ 64 := c.width.bits_le
  have hP : c.P < c.W := c.prec.isLt
  simp only [← BitVec.toNat_inj, BitVec.extractLsb'_toNat, Config.register_toNat, Nat.shiftRight_eq_div_pow,
    BitVec.toNat_ofNat]
  omega

namespace Machine

/-- Settles O3: the fields by `Config.register_fields`; the rest holds because no step and no interaction changes the
configuration. -/
theorem cfgRegisterIsHardwired : Obligations.CfgRegisterIsHardwired := by
  unfold Obligations.CfgRegisterIsHardwired
  refine ⟨Config.register_fields, fun _ _ => rfl, fun s t h => ?_, fun _ _ => rfl⟩
  rw [step_cfg h]

/-- Settles O2: the table by evaluation, the ranges by `sint_range` and `sintN_of_range`. -/
theorem traitTableRowsAndRanges : Obligations.TraitTableRowsAndRanges := by
  unfold Obligations.TraitTableRowsAndRanges
  refine ⟨rfl, fun n => Width.isSome_ofBits_iff, fun w v => sint_range v, fun w v => ?_, fun w z hlow hhigh => ?_,
    fun w n hn => ?_⟩
  · exact Nat.le_sub_one_of_lt v.isLt
  · exact sintN_of_range (width_bits_pos w) hlow hhigh
  · have hlt : n < 2 ^ w.bits := by have := Nat.two_pow_pos w.bits; omega
    simp only [uint, wrap, BitVec.ofInt_natCast, BitVec.toNat_ofNat, Nat.mod_eq_of_lt hlt]

/-! ### The fields of a pattern (R11) -/

/-- The signed and the unsigned reading of a pattern differ by a multiple of `2^W`, which is one of `2^P`. -/
theorem sint_eq_uint_sub (c : Config) (v : BitVec c.W) :
    ∃ k : Int, sint v = uint v - k * 2 ^ (c.W - c.P) * 2 ^ c.P := by
  have hpow : (2 : Int) ^ (c.W - c.P) * 2 ^ c.P = 2 ^ c.W := by rw [← pow_add, Nat.sub_add_cancel (P_lt_W c).le]
  simp only [mul_assoc, hpow]
  rw [sint, BitVec.toInt_eq_toNat_cond]
  split
  · exact ⟨0, by simp⟩
  · exact ⟨1, by simp⟩

/-- Shifting the fraction bits out of a signed `W`-bit integer leaves a signed `W-P`-bit integer. -/
theorem asr_sint_range (c : Config) (v : BitVec c.W) :
    leastSigned (c.W - c.P) ≤ asr (sint v) c.P ∧ asr (sint v) c.P ≤ greatestSigned (c.W - c.P) := by
  obtain ⟨hlow, hhigh⟩ := sint_range v
  have hlt := P_lt_W c
  have hpow : (2 : Int) ^ (c.W - 1) = 2 ^ (c.W - c.P - 1) * 2 ^ c.P := by rw [← pow_add]; congr 1; omega
  have hpos : (0 : Int) < 2 ^ c.P := by positivity
  unfold leastSigned greatestSigned at *
  refine ⟨Int.le_ediv_of_mul_le hpos (by linarith), Int.le_sub_one_of_lt (Int.ediv_lt_of_lt_mul hpos (by linarith))⟩

/-- The integer field is the arithmetic shift of the pattern by `P`: the floor of its value (R11). -/
theorem sint_intField (c : Config) (v : BitVec c.W) : sint (intField c v) = asr (sint v) c.P := by
  have hwrap : intField c v = wrap (c.W - c.P) (asr (sint v) c.P) := by
    have hunsigned : intField c v = wrap (c.W - c.P) ((uint v : Int) / 2 ^ c.P) := by
      show BitVec.ofNat _ (v.toNat >>> c.P) = _
      rw [Nat.shiftRight_eq_div_pow, ← BitVec.ofInt_natCast]
      push_cast
      rfl
    obtain ⟨k, hk⟩ := sint_eq_uint_sub c v
    rw [hunsigned, wrap_eq_wrap_iff, asr, hk, Int.sub_mul_ediv_right _ _ (by positivity), Int.sub_mul_emod_self_right]
  obtain ⟨hlow, hhigh⟩ := asr_sint_range c v
  rw [hwrap]
  exact sintN_of_range (Nat.sub_pos_of_lt (P_lt_W c)) hlow hhigh

/-- The fraction field is what the arithmetic shift by `P` drops (R11). -/
theorem uint_fracField (c : Config) (v : BitVec c.W) : (uint (fracField c v) : Int) = sint v % 2 ^ c.P := by
  obtain ⟨k, hk⟩ := sint_eq_uint_sub c v
  rw [hk, Int.sub_mul_emod_self_right, fracField, uint, BitVec.extractLsb'_toNat, Nat.shiftRight_zero]
  push_cast
  rfl

/-- A pattern is its integer field times `2^P` plus its fraction field (R11). -/
theorem sint_eq_fields (c : Config) (v : BitVec c.W) :
    sint v = sint (intField c v) * 2 ^ c.P + uint (fracField c v) := by
  rw [sint_intField, uint_fracField, asr]
  exact (Int.ediv_mul_add_emod _ _).symm

/-! ### The value of a pattern (R10 to R12) -/

theorem two_pow_prec_pos (c : Config) : (0 : Rat) < 2 ^ c.P := by positivity

/-- Values are ordered as the integers they count in ulps. -/
theorem denote_lt_iff (c : Config) (v : BitVec c.W) (q : Rat) : denote c v < q ↔ (sint v : Rat) < q * 2 ^ c.P :=
  div_lt_iff₀ (two_pow_prec_pos c)

theorem denote_eq_iff (c : Config) (v : BitVec c.W) (q : Rat) : denote c v = q ↔ (sint v : Rat) = q * 2 ^ c.P :=
  div_eq_iff (two_pow_prec_pos c).ne'

theorem le_denote_iff (c : Config) (v : BitVec c.W) (q : Rat) : q ≤ denote c v ↔ q * 2 ^ c.P ≤ (sint v : Rat) :=
  le_div_iff₀ (two_pow_prec_pos c)

theorem denote_le_iff (c : Config) (v : BitVec c.W) (q : Rat) : denote c v ≤ q ↔ (sint v : Rat) ≤ q * 2 ^ c.P :=
  div_le_iff₀ (two_pow_prec_pos c)

theorem denote_eq_fields (c : Config) (v : BitVec c.W) :
    denote c v = (sint (intField c v) : Rat) + (uint (fracField c v) : Rat) / 2 ^ c.P := by
  have h : (sint v : Rat) = sint (intField c v) * 2 ^ c.P + uint (fracField c v) := mod_cast sint_eq_fields c v
  rw [denote_eq_iff, h, add_mul, div_mul_cancel₀ _ (two_pow_prec_pos c).ne']

theorem floor_denote (c : Config) (v : BitVec c.W) : ⌊denote c v⌋ = sint (intField c v) := by
  have h := Rat.floor_intCast_div_natCast (sint v) (2 ^ c.P)
  push_cast at h
  rw [sint_intField]
  exact h

theorem denote_neg_iff (c : Config) (v : BitVec c.W) : denote c v < 0 ↔ sint v < 0 := by
  rw [denote_lt_iff, zero_mul, Int.cast_lt_zero]

/-- The ends of the value range, in ulps (R12). -/
theorem two_pow_mul_two_pow_prec (c : Config) : (2 : Rat) ^ (c.W - 1 - c.P) * 2 ^ c.P = 2 ^ (c.W - 1) := by
  have hlt := P_lt_W c
  rw [← pow_add]
  congr 1
  omega

theorem greatest_mul_two_pow_prec (c : Config) :
    ((2 : Rat) ^ (c.W - 1 - c.P) - 1 / 2 ^ c.P) * 2 ^ c.P = 2 ^ (c.W - 1) - 1 := by
  rw [sub_mul, two_pow_mul_two_pow_prec, div_mul_cancel₀ _ (two_pow_prec_pos c).ne']

/-- The signed range of a pattern, among the rationals. -/
theorem sint_rat_range (c : Config) (v : BitVec c.W) :
    -(2 : Rat) ^ (c.W - 1) ≤ sint v ∧ (sint v : Rat) ≤ 2 ^ (c.W - 1) - 1 := by
  obtain ⟨hlow, hhigh⟩ := sint_range v
  unfold leastSigned at hlow
  unfold greatestSigned at hhigh
  exact ⟨mod_cast hlow, mod_cast hhigh⟩

theorem denote_range (c : Config) (v : BitVec c.W) :
    -2 ^ (c.W - 1 - c.P) ≤ denote c v ∧ denote c v ≤ 2 ^ (c.W - 1 - c.P) - 1 / 2 ^ c.P := by
  rw [le_denote_iff, denote_le_iff, neg_mul, two_pow_mul_two_pow_prec, greatest_mul_two_pow_prec]
  exact sint_rat_range c v

theorem denote_intMin (c : Config) : denote c (BitVec.intMin c.W) = -2 ^ (c.W - 1 - c.P) := by
  rw [denote_eq_iff, neg_mul, two_pow_mul_two_pow_prec, sint, BitVec.toInt_intMin_of_pos (width_bits_pos c.width)]
  push_cast
  rfl

theorem denote_intMax (c : Config) :
    denote c (BitVec.intMax c.W) = 2 ^ (c.W - 1 - c.P) - 1 / 2 ^ c.P := by
  rw [denote_eq_iff, greatest_mul_two_pow_prec, sint, BitVec.toInt_intMax]
  push_cast
  rfl

/-- One value has one pattern (R12). -/
theorem denote_injective (c : Config) : Function.Injective (denote c) := by
  intro u v h
  have hsint : (sint u : Rat) = sint v := (div_left_inj' (two_pow_prec_pos c).ne').mp h
  exact BitVec.toInt_inj.mp (mod_cast hsint)

theorem denote_zero (c : Config) : denote c 0#c.W = 0 := by
  simp [denote]

/-- Settles O4: the pattern is split by `sint_eq_fields`; at `P = 0` the fraction field is empty, and at `P = W-1` the
range of R12 is that of one integer bit. -/
theorem valueIsIntegerFieldPlusFraction : Obligations.ValueIsIntegerFieldPlusFraction := by
  unfold Obligations.ValueIsIntegerFieldPlusFraction
  intro c v
  refine ⟨denote_eq_fields c v, floor_denote c v, ?_, fun hP => ?_, fun hP => ?_⟩
  · rw [denote_neg_iff]
    exact (Bool.eq_iff_iff.mp BitVec.msb_eq_toInt).trans decide_eq_true_iff
  · have hempty : uint (fracField c v) = 0 :=
      Nat.lt_one_iff.mp ((fracField c v).isLt.trans_eq (by rw [hP, pow_zero]))
    rw [denote_eq_fields, hempty]
    simp
  · obtain ⟨hlow, hhigh⟩ := denote_range c v
    have hulp : (0 : Rat) < 1 / 2 ^ c.P := one_div_pos.mpr (two_pow_prec_pos c)
    rw [hP, Nat.sub_self, pow_zero] at hlow hhigh
    rw [hP] at hulp
    exact ⟨hlow, by linarith⟩

/-- Settles O5: the range in ulps is that of a signed `W`-bit integer, whose ends are the patterns `10...0` and
`01...1`. -/
theorem valueRangeAndUniquePatterns : Obligations.ValueRangeAndUniquePatterns := by
  unfold Obligations.ValueRangeAndUniquePatterns
  intro c v
  obtain ⟨hlow, hhigh⟩ := denote_range c v
  refine ⟨⟨sint v, rfl⟩, hlow, hhigh, denote_intMin c, denote_intMax c, fun u h => denote_injective c h, ?_⟩
  rw [← denote_zero c]
  exact (denote_injective c).eq_iff

end Machine

end Sys2Proof
end

section
/-! An instruction as a function of its operands (20_memory.md R46, 10_state.md R27): the same instruction on two blocks
that agree on its sources. -/

namespace Sys2Proof.Machine

section Effects

variable {w : Nat} {b b' : Block w} {rd : Reg}

/-- From `b` to `t` and from `b'` to `t'` the same has happened: both completed with one result for `rd`, or both took
one fault. -/
def Block.SameEffect (rd : Reg) (b b' t t' : Block w) : Prop :=
  (∃ r, b.CompletedTo rd r t ∧ b'.CompletedTo rd r t') ∨ ∃ k, b.FaultedTo k t ∧ b'.FaultedTo k t'

theorem Block.sameEffect_complete (v : BitVec w) :
    Block.SameEffect rd b b' (b.complete rd v) (b'.complete rd v) :=
  .inl ⟨_, b.completedTo_complete rd v, b'.completedTo_complete rd v⟩

theorem Block.sameEffect_takeFault (k : Cause) : Block.SameEffect rd b b' (b.takeFault k) (b'.takeFault k) :=
  .inr ⟨k, b.faultedTo_takeFault k, b'.faultedTo_takeFault k⟩

theorem Block.sameEffect_settle (r : Except Cause (BitVec w)) :
    Block.SameEffect rd b b' (b.settle rd r) (b'.settle rd r) := by
  cases r with
  | ok v => exact sameEffect_complete v
  | error k => exact sameEffect_takeFault k

/-- Reading one register that agrees: both go on with the same pattern, or both take `UNINIT_READ` (R162). -/
theorem Block.sameEffect_withRa {ra : Reg} {f : BitVec w → Block w → Block w} (ha : b.readReg ra = b'.readReg ra)
    (hf : ∀ x, Block.SameEffect rd b b' (f x b) (f x b')) :
    Block.SameEffect rd b b' (b.withRa ra f) (b'.withRa ra f) := by
  cases hx : b.readReg ra with
  | none =>
    rw [Block.withRa_none hx, Block.withRa_none (ha.symm.trans hx)]
    exact sameEffect_takeFault _
  | some x =>
    rw [Block.withRa_some hx, Block.withRa_some (ha.symm.trans hx)]
    exact hf x

theorem Block.sameEffect_withRaRb {ra rb : Reg} {f : BitVec w → BitVec w → Block w → Block w}
    (h : ∀ r ∈ [ra, rb], b.readReg r = b'.readReg r)
    (hf : ∀ x y, Block.SameEffect rd b b' (f x y b) (f x y b')) :
    Block.SameEffect rd b b' (b.withRaRb ra rb f) (b'.withRaRb ra rb f) :=
  sameEffect_withRa (h ra (by simp)) fun x => sameEffect_withRa (h rb (by simp)) (hf x)

end Effects

/-- An instruction has the same effect on two blocks that agree on the registers it reads (R46): its operand reads agree,
and past them its value step sees the operands alone. -/
theorem exec_sameEffect (i : Instr) {c : Config} {b b' : Block c.W}
    (h : ∀ r ∈ i.sources, b.readReg r = b'.readReg r) :
    ∃ t t' : Block c.W, exec i ⟨c, b⟩ = .next ⟨c, t⟩ ∧ exec i ⟨c, b'⟩ = .next ⟨c, t'⟩ ∧
      Block.SameEffect i.dest b b' t t' := by
  cases i
  case new rd =>
    exact ⟨_, _, rfl, rfl,
      .inl ⟨none, b.completedTo_markUnwritten_advance rd, b'.completedTo_markUnwritten_advance rd⟩⟩
  case mov rd ra | fromInt rd ra | toInt rd ra =>
    exact ⟨_, _, rfl, rfl, Block.sameEffect_withRa (h ra (List.mem_singleton_self ra)) fun _ =>
      Block.sameEffect_complete _⟩
  case divFF | divFI | divIF =>
    exact ⟨_, _, rfl, rfl, Block.sameEffect_withRaRb h fun _ _ => Block.sameEffect_settle _⟩
  all_goals exact ⟨_, _, rfl, rfl, Block.sameEffect_withRaRb h fun _ _ => Block.sameEffect_complete _⟩

/-- Fault entry stores the code of its cause: the host's read of FCAUSE shows all three stored bits (R23). -/
theorem Block.FaultedTo.fcause {w : Nat} {b t : Block w} {k : Cause} (h : b.FaultedTo k t) : t.fcause = k.code := by
  obtain ⟨-, -, -, -, hcause, -, -⟩ := h
  simpa [Block.readFcause, zext] using congrArg (BitVec.setWidth 3) hcause

/-- Settles O34: `exec_sameEffect`, whose two outcomes are those of the given states. -/
theorem resultDependsOnlyOnOperands : Obligations.ResultDependsOnlyOnOperands := by
  unfold Obligations.ResultDependsOnlyOnOperands
  intro i c b b' t t' hsrc ht ht'
  obtain ⟨u, u', hu, hu', heffect⟩ := exec_sameEffect i hsrc
  cases hu.symm.trans ht
  cases hu'.symm.trans ht'
  rcases heffect with ⟨r, ⟨hr, -, hpc, -⟩, hr', -, hpc', -⟩ | ⟨k, hk, hk'⟩
  · exact .inl ⟨hr.trans hr'.symm, hpc, hpc'⟩
  · have hcause : t.fcause = t'.fcause := hk.fcause.trans hk'.fcause.symm
    obtain ⟨-, hpc, -, hrs, -⟩ := hk
    obtain ⟨-, hpc', -, hrs', -⟩ := hk'
    exact .inr ⟨hrs, hrs', hcause, hpc, hpc'⟩

end Sys2Proof.Machine
end

section
/-! The little-endian byte images (20_memory.md R44): what a byte of an image holds, and reading an image back. -/

namespace Sys2Proof

@[simp] theorem length_toBytes {w : Nat} (n : Nat) (v : BitVec w) : (toBytes n v).length = n := by
  simp [toBytes]

/-- Byte `k` of an image holds the bits `[8k+7:8k]` (R44). -/
theorem getElem?_toBytes {w n k : Nat} (v : BitVec w) (hk : k < n) :
    (toBytes n v)[k]? = some (v.extractLsb' (8 * k) 8) := by
  simp [toBytes, hk]

/-- The lowest byte comes first, and the others are the image of the pattern shifted right by 8. -/
theorem toBytes_succ {w : Nat} (n : Nat) (v : BitVec w) :
    toBytes (n + 1) v = v.extractLsb' 0 8 :: toBytes n (v >>> 8) := by
  have hbyte (k : Nat) : v.extractLsb' (8 * (k + 1)) 8 = (v >>> 8).extractLsb' (8 * k) 8 := by
    apply BitVec.eq_of_toNat_eq
    rw [BitVec.extractLsb'_toNat, BitVec.extractLsb'_toNat, BitVec.toNat_ushiftRight, ← Nat.shiftRight_add, Nat.mul_succ,
      Nat.add_comm]
  simp [toBytes, List.range_succ_eq_map, hbyte]

/-- The number an `n`-byte image spells is the low `8n` bits of the pattern. -/
theorem foldr_toBytes {w : Nat} (n : Nat) (v : BitVec w) :
    (toBytes n v).foldr (fun b acc => b.toNat + 256 * acc) 0 = v.toNat % 2 ^ (8 * n) := by
  induction n generalizing v with
  | zero => simp [toBytes, Nat.mod_one]
  | succ n ih =>
    have hpow : 2 ^ (8 * (n + 1)) = 256 * 2 ^ (8 * n) := by rw [Nat.mul_succ, pow_add, mul_comm]; rfl
    rw [toBytes_succ, List.foldr_cons, ih, hpow, Nat.mod_mul, BitVec.extractLsb'_toNat, BitVec.toNat_ushiftRight,
      Nat.shiftRight_zero, Nat.shiftRight_eq_div_pow]

/-- A pattern of whole bytes is read back from its image (R44). -/
theorem ofBytes_toBytes {w n : Nat} (hw : 8 * n = w) (v : BitVec w) : ofBytes w (toBytes n v) = v := by
  rw [ofBytes, foldr_toBytes, hw, Nat.mod_eq_of_lt v.isLt, BitVec.ofNat_toNat, BitVec.setWidth_eq]

theorem ofBytes_bytesOfWord (w : OpWord) : ofBytes 32 (bytesOfWord w) = w :=
  ofBytes_toBytes (n := 4) rfl w

/-- Every supported width is whole bytes (R14). -/
theorem Width.eight_mul_bytes (w : Width) : 8 * (w.bits / 8) = w.bits := by cases w <;> rfl

/-- The decoder takes the four bytes of a word off an image and leaves the rest. -/
theorem decodeBytes_bytesOfWord_append (w : OpWord) (rest : List Byte) :
    decodeBytes (bytesOfWord w ++ rest) = (decode w).map fun i => (i, rest) := by
  show (decode (ofBytes 32 (bytesOfWord w))).map (fun i => (i, rest)) = _
  rw [ofBytes_bytesOfWord]

namespace Machine

/-- A value is read back from its image (R44). -/
theorem valueOfImage_imageOfValue (c : Config) (v : BitVec c.W) : valueOfImage c (imageOfValue c v) = some v := by
  rw [valueOfImage, imageOfValue, length_toBytes, if_pos rfl, ofBytes_toBytes c.width.eight_mul_bytes]

/-- The first four bytes of an image are its first word (assumption 14). -/
theorem programOfImage_bytesOfWord_append (w : OpWord) (bs : List Byte) :
    programOfImage (bytesOfWord w ++ bs) = (programOfImage bs).map (w :: ·) := by
  have hread : programOfImage (bytesOfWord w ++ bs) =
      (programOfImage bs).map (ofBytes 32 (bytesOfWord w) :: ·) := by
    show programOfImage (_ :: _ :: _ :: _ :: bs) = _
    rw [programOfImage]
    cases programOfImage bs <;> rfl
  rw [hread, ofBytes_bytesOfWord]

/-- A program is read back from its image, word by word. -/
theorem programOfImage_imageOfProgram (ws : List OpWord) : programOfImage (imageOfProgram ws) = some ws := by
  induction ws with
  | nil => rfl
  | cons w ws ih =>
    rw [imageOfProgram] at ih ⊢
    rw [List.flatMap_cons, programOfImage_bytesOfWord_append, ih, Option.map_some]

/-- Settles O41: the bytes by `getElem?_toBytes`, the ways back by `ofBytes_toBytes` and its uses. -/
theorem byteImagesAreLittleEndian : Obligations.ByteImagesAreLittleEndian := by
  unfold Obligations.ByteImagesAreLittleEndian
  exact ⟨fun w _ hk => getElem?_toBytes w hk, fun w => ⟨length_toBytes 4 w, ofBytes_bytesOfWord w⟩,
    fun _ v _ hk => getElem?_toBytes v hk, fun c v => ⟨length_toBytes _ v, valueOfImage_imageOfValue c v⟩,
    programOfImage_imageOfProgram, decodeBytes_bytesOfWord_append⟩

end Machine

end Sys2Proof
end

section
/-! Runs of one instance and of several (20_memory.md R48, 70_reset_and_hazards.md R184): a run ends within the length of
its program, and a schedule gives an instance the steps of its own run. -/

namespace Sys2Proof.Machine

/-! ### The end of a run -/

/-- An instruction answers a next state in every state (R46). -/
theorem exists_exec_next (i : Instr) (c : Config) (b : Block c.W) : ∃ t, exec i ⟨c, b⟩ = .next t := by
  rcases exec_cases i c b with ⟨_, t, h, -⟩ | h | ⟨-, _, -, h⟩ <;> exact ⟨_, h⟩

/-- A running block whose pc is an index into its program, or its end, has a next state. -/
theorem exists_step_next {c : Config} {b : Block c.W} (hrs : b.rs = .run) (hpc : b.pc.toNat ≤ b.program.length) :
    ∃ t, step ⟨c, b⟩ = .next t := by
  rcases step_cases c b with ⟨-, h⟩ | ⟨hfault, -⟩ | ⟨-, -, h⟩ | ⟨-, hbeyond, -⟩ | ⟨_, i, -, -, -, -, h⟩ |
    ⟨_, _, -, -, -, -, h⟩
  · exact ⟨_, h⟩
  · rw [hrs] at hfault; cases hfault
  · exact ⟨_, h⟩
  · omega
  · rw [h]; exact exists_exec_next i c b
  · exact ⟨_, h⟩

/-- Below the end of a program that fits, a completed instruction moves the pc by one, without a wrap (R21). -/
theorem Block.Inv.pc_completedTo {w : Nat} {b t : Block w} {rd : Reg} {r : Option (BitVec w)} (h : b.Inv)
    (hpc : b.pc.toNat < b.program.length) (ht : b.CompletedTo rd r t) : t.pc.toNat = b.pc.toNat + 1 := by
  obtain ⟨hlen, -⟩ := h
  obtain ⟨-, -, hpc', -⟩ := ht
  rw [hpc', BitVec.toNat_add]
  exact Nat.mod_eq_of_lt (show b.pc.toNat + 1 < 2 ^ 32 by omega)

/-- One step that answers a next state is a run of one step. -/
theorem core_run_one {s t : State} (h : step s = .next t) : Host.Core.run core 1 s = .next t :=
  core_run_of_step h 0

/-- A run cannot hang (R184): with `n` words left it ends in DONE after exactly `n + 1` steps, or in FAULT after at most
as many. By induction on `n`: each instruction that completes leaves one word less. -/
theorem run_ends {c : Config} {n : Nat} {b : Block c.W} (hinv : b.Inv) (hrs : b.rs = .run)
    (hn : b.program.length - b.pc.toNat = n) :
    ∃ (k : Nat) (t : Block c.W), k ≤ n + 1 ∧ Host.Core.run core k ⟨c, b⟩ = .next ⟨c, t⟩ ∧
      (t.rs = .done ∧ k = n + 1 ∨ t.rs = .fault) := by
  have hle : b.pc.toNat ≤ b.program.length := by obtain ⟨-, hle, -⟩ := hinv; exact hle
  induction n generalizing b with
  | zero =>
    obtain ⟨s, hs⟩ := exists_step_next hrs hle
    obtain ⟨hrest, -⟩ | ⟨-, -, rfl⟩ | ⟨-, hpc, -⟩ | ⟨-, hpc, -⟩ := step_next_cases hs
    · simp [hrs] at hrest
    · exact ⟨1, _, le_rfl, core_run_one hs, .inl ⟨rfl, rfl⟩⟩
    all_goals omega
  | succ n ih =>
    obtain ⟨s, hs⟩ := exists_step_next hrs hle
    obtain ⟨hrest, -⟩ | ⟨-, hpc, -⟩ | ⟨-, hpc, _, _, b', hb', rfl⟩ | ⟨-, -, _, k, -, rfl⟩ := step_next_cases hs
    · simp [hrs] at hrest
    · omega
    · have hinv' : b'.Inv := hinv.completedTo hrs hpc hb'
      have hpc' := hinv.pc_completedTo hpc hb'
      obtain ⟨-, -, -, hprog, hrs', -⟩ := hb'
      obtain ⟨k, t, hk, hrun, hend⟩ :=
        ih hinv' (hrs'.trans hrs) (by rw [hprog, hpc']; omega) (by rw [hprog, hpc']; omega)
      exact ⟨k + 1, t, by omega, (core_run_of_step hs k).trans hrun,
        hend.imp_left fun ⟨hdone, hexact⟩ => ⟨hdone, by omega⟩⟩
    · exact ⟨1, _, by omega, core_run_one hs, .inr rfl⟩

/-! ### The steps of an instance -/

theorem State.advanceBy_eq_iterate (k : Nat) (s : State) : State.advanceBy k s = State.advance^[k] s := by
  induction k generalizing s with
  | zero => rfl
  | succ k ih => exact ih s.advance

/-- A run that reaches a state has a next state after its first step, from which it goes on. -/
theorem run_succ_next {M : Host.Core} {k : Nat} {s t : M.State} (h : M.run (k + 1) s = .next t) :
    ∃ s', M.step s = .next s' ∧ M.run k s' = .next t := by
  rw [Host.Core.run] at h
  split at h
  case h_1 s' hs => exact ⟨s', hs, h⟩
  all_goals cases h

/-- Where a run reaches a state, the instance's steps reach it too. -/
theorem advanceBy_of_run {k : Nat} {s t : State} (h : Host.Core.run core k s = .next t) :
    State.advanceBy k s = t := by
  induction k generalizing s with
  | zero => cases h; rfl
  | succ k ih =>
    obtain ⟨s', hs, hrun⟩ := run_succ_next (M := core) h
    rw [State.advanceBy_succ, State.advance_of_step hs, ih hrun]

/-- Once its run has ended, an instance stays where it is however many steps it is still given (R167, assumption 8). -/
theorem advanceBy_of_run_ended {c : Config} {j k : Nat} {s : State} {t : Block c.W}
    (h : Host.Core.run core j s = .next ⟨c, t⟩) (ht : t.ended) (hjk : j ≤ k) : State.advanceBy k s = ⟨c, t⟩ := by
  obtain ⟨m, rfl⟩ := Nat.exists_eq_add_of_le' hjk
  rw [State.advanceBy_eq_iterate, Function.iterate_add_apply, ← State.advanceBy_eq_iterate j, advanceBy_of_run h]
  exact Function.iterate_fixed (State.advance_of_ended ht) m

/-! ### The steps of a schedule -/

/-- A schedule moves an instance by as many steps as it names it: the steps of the others do not touch it (R48). -/
theorem getElem?_runSchedule (ks : List Nat) (f : Instances) (k : Nat) :
    (runSchedule ks f)[k]? = f[k]?.map (State.advanceBy (ks.count k)) := by
  induction ks generalizing f with
  | nil => exact Option.map_id_apply.symm
  | cons j ks ih =>
    rw [runSchedule, ih, getElem?_stepInstance]
    by_cases hj : j = k
    · rw [if_pos hj, hj, List.count_cons_self, Option.map_map]
      rfl
    · rw [if_neg hj, List.count_cons_of_ne hj]

/-- Settles O60: by `getElem?_runSchedule` only the number of its own steps matters to an instance; `advanceBy_of_run`
compares them with its own run, and `run_ends` bounds that run. -/
theorem interleavedInstancesRunAsAlone : Obligations.InterleavedInstancesRunAsAlone := by
  unfold Obligations.InterleavedInstancesRunAsAlone
  refine ⟨fun ks f k s t hf hrun => ?_, fun ks f k c b hf hinv hrs hcount => ?_⟩
  · rw [getElem?_runSchedule, hf, Option.map_some, advanceBy_of_run hrun]
  · obtain ⟨j, t, hj, hrun, hend⟩ := run_ends hinv hrs rfl
    have hended : t.ended := hend.imp_left And.left
    refine ⟨j, t, hj, hrun, hended, ?_⟩
    rw [getElem?_runSchedule, hf, Option.map_some, advanceBy_of_run_ended hrun hended (hj.trans hcount)]

end Sys2Proof.Machine
end

section
/-! The round trip of decoder and encoder (30_encoding.md R50 to R56, R63): both are decided by one relation, that the
fields of a word spell an instruction. -/

namespace Sys2Proof

/-- The register fields that hold the sources in a word of a format (R51). -/
def Format.sourceFields (w : OpWord) : Format → List Reg
  | .D => []
  | .DA => [raField w]
  | .DAB => [raField w, rbField w]

/-- The fields of the word `w` spell the instruction `i` (R50 to R53). -/
def Instr.FieldsMatch (i : Instr) (w : OpWord) : Prop :=
  opcodeField w = i.opcode ∧ mustBeZeroOk i.format w = true ∧ rdField w = i.dest ∧ i.format.sourceFields w = i.sources

/-- A format fixes how many sources an instruction has (R51). -/
theorem Instr.format_sources (i : Instr) :
    (i.format = .D ∧ i.sources = []) ∨ (i.format = .DA ∧ ∃ ra, i.sources = [ra]) ∨
      (i.format = .DAB ∧ ∃ ra rb, i.sources = [ra, rb]) := by
  cases i
  case new => exact .inl ⟨rfl, rfl⟩
  case mov | fromInt | toInt => exact .inr (.inl ⟨rfl, _, rfl⟩)
  all_goals exact .inr (.inr ⟨rfl, _, _, rfl⟩)

/-! ### The decoder -/

theorem fieldsMatch_of_decode {w : OpWord} {i : Instr} (h : decode w = .ok i) : i.FieldsMatch w := by
  unfold decode at h
  split at h
  case h_28 => cases h
  all_goals
    rename_i hop
    obtain ⟨hz, rfl⟩ := (checked_eq_ok_iff ..).mp h
    exact ⟨BitVec.eq_of_toNat_eq hop, hz, rfl, rfl⟩

theorem decode_of_fieldsMatch {w : OpWord} {i : Instr} (h : i.FieldsMatch w) : decode w = .ok i := by
  obtain ⟨hop, hz, hrd, hsrc⟩ := h
  have hchecked : decode w = checked i.format w i := by
    unfold decode
    rw [hop]
    cases i
    all_goals
      cases hrd
      cases hsrc
      rfl
  exact hchecked.trans ((checked_eq_ok_iff ..).mpr ⟨hz, rfl⟩)

/-- The decoder answers the instruction that the fields spell (R56). -/
theorem decode_eq_ok_iff {w : OpWord} {i : Instr} : decode w = .ok i ↔ i.FieldsMatch w :=
  ⟨fieldsMatch_of_decode, decode_of_fieldsMatch⟩

/-! ### The encoder -/

/-- The word of an instruction, with 0 for a register field that its format does not use (R63). -/
theorem encode_eq_packWord (i : Instr) :
    encode i = packWord i.opcode i.dest (i.sources[0]?.getD 0) (i.sources[1]?.getD 0) := by
  unfold encode
  rcases i.format_sources with ⟨-, h⟩ | ⟨-, ra, h⟩ | ⟨-, ra, rb, h⟩ <;> rw [h] <;> rfl

theorem fieldsMatch_encode (i : Instr) : i.FieldsMatch (encode i) := by
  rw [encode_eq_packWord, Instr.FieldsMatch]
  rcases i.format_sources with ⟨hf, h⟩ | ⟨hf, ra, h⟩ | ⟨hf, ra, rb, h⟩ <;> rw [hf, h]
  · exact ⟨opcodeField_packWord .., mustBeZeroOk_packWord_D .., rdField_packWord .., rfl⟩
  · exact ⟨opcodeField_packWord .., mustBeZeroOk_packWord_DA .., rdField_packWord .., by simp [Format.sourceFields]⟩
  · exact ⟨opcodeField_packWord .., mustBeZeroOk_packWord_DAB .., rdField_packWord .., by simp [Format.sourceFields]⟩

theorem opcodeField_toNat (w : OpWord) : (opcodeField w).toNat = w.toNat / 2 ^ 24 % 2 ^ 8 := by
  rw [opcodeField, BitVec.extractLsb'_toNat, Nat.shiftRight_eq_div_pow]

/-- A register field as a number; `rdField`, `raField` and `rbField` are those at the bits 20, 16 and 12 (R50). -/
theorem val_toFin_extractLsb' (w : OpWord) (k : Nat) : (w.extractLsb' k 4).toFin.val = w.toNat / 2 ^ k % 2 ^ 4 := by
  rw [BitVec.val_toFin, BitVec.extractLsb'_toNat, Nat.shiftRight_eq_div_pow]

/-- A word whose must-be-zero bits are zero is its own fields put side by side: no bit is outside them (R50, R51). -/
theorem packWord_fields {f : Format} {w : OpWord} (hz : mustBeZeroOk f w = true) :
    packWord (opcodeField w) (rdField w) ((f.sourceFields w)[0]?.getD 0) ((f.sourceFields w)[1]?.getD 0) = w := by
  have hrd : (rdField w).val = w.toNat / 2 ^ 20 % 2 ^ 4 := val_toFin_extractLsb' w 20
  have hra : (raField w).val = w.toNat / 2 ^ 16 % 2 ^ 4 := val_toFin_extractLsb' w 16
  have hrb : (rbField w).val = w.toNat / 2 ^ 12 % 2 ^ 4 := val_toFin_extractLsb' w 12
  have hw := w.isLt
  rw [mustBeZeroOk_iff] at hz
  apply BitVec.eq_of_toNat_eq
  rw [packWord_toNat, opcodeField_toNat]
  cases f <;> simp [Format.sourceFields] at hz ⊢ <;> omega

/-- The word of an instruction is the one word whose fields spell it (R63). -/
theorem encode_eq_iff {w : OpWord} {i : Instr} : encode i = w ↔ i.FieldsMatch w := by
  constructor
  · rintro rfl
    exact fieldsMatch_encode i
  · rintro ⟨hop, hz, hrd, hsrc⟩
    rw [encode_eq_packWord, ← hop, ← hrd, ← hsrc]
    exact packWord_fields hz

/-! ### The round trip -/

/-- Decoder and encoder are inverse to one another (R56, R63). -/
theorem decode_eq_ok_iff_encode_eq {w : OpWord} {i : Instr} : decode w = .ok i ↔ encode i = w :=
  decode_eq_ok_iff.trans encode_eq_iff.symm

theorem decode_encode (i : Instr) : decode (encode i) = .ok i := decode_eq_ok_iff_encode_eq.mpr rfl

/-- Settles O35, by `decode_encode`. -/
theorem decodeOfEncodeIsTheInstruction : Obligations.DecodeOfEncodeIsTheInstruction := by
  unfold Obligations.DecodeOfEncodeIsTheInstruction
  exact decode_encode

/-- Settles O36, by the other direction of `decode_eq_ok_iff_encode_eq`. -/
theorem encodeOfDecodeIsTheWord : Obligations.EncodeOfDecodeIsTheWord := by
  unfold Obligations.EncodeOfDecodeIsTheWord
  exact fun _ _ => decode_eq_ok_iff_encode_eq.mp

end Sys2Proof
end

section
/-! The rows of the opcode map, the structure of the comparison opcodes, and words written out (30_encoding.md R51 to
R57, R63). -/

namespace Sys2Proof

/-! ### Rows -/

theorem Instr.row_mem_opcodeRows (i : Instr) : (i.opcode, i.format) ∈ opcodeRows := by
  cases i <;> exact List.mem_of_elem_eq_true rfl

/-- Every row of the map has its arm in the decoder (R53, R56). -/
theorem exists_decode_eq_checked {op : BitVec 8} {f : Format} {w : OpWord} (hrow : (op, f) ∈ opcodeRows)
    (hop : opcodeField w = op) : ∃ i, decode w = checked f w i := by
  unfold decode
  rw [hop]
  fin_cases hrow <;> exact ⟨_, rfl⟩

/-- A word is legal exactly when it belongs to a row (R51, R53, R55). -/
theorem exists_decode_iff (w : OpWord) : (∃ i, decode w = .ok i) ↔ ∃ row ∈ opcodeRows, rowMatches row w = true := by
  constructor
  · rintro ⟨i, h⟩
    obtain ⟨hop, hz, -, -⟩ := decode_eq_ok_iff.mp h
    exact ⟨_, i.row_mem_opcodeRows, (rowMatches_iff ..).mpr ⟨hop, hz⟩⟩
  · rintro ⟨⟨op, f⟩, hrow, hmatch⟩
    obtain ⟨hop, hz⟩ := (rowMatches_iff ..).mp hmatch
    obtain ⟨i, h⟩ := exists_decode_eq_checked hrow hop
    exact ⟨i, h.trans ((checked_eq_ok_iff ..).mpr ⟨hz, rfl⟩)⟩

theorem nodup_opcodes : (opcodeRows.map Prod.fst).Nodup := by decide

/-- Two rows with a word in common have its opcode, and no opcode has two rows (R53). -/
theorem row_eq_of_rowMatches {w : OpWord} {r q : BitVec 8 × Format} (hr : r ∈ opcodeRows) (hq : q ∈ opcodeRows)
    (hrw : rowMatches r w = true) (hqw : rowMatches q w = true) : r = q := by
  obtain ⟨hrop, -⟩ := (rowMatches_iff ..).mp hrw
  obtain ⟨hqop, -⟩ := (rowMatches_iff ..).mp hqw
  exact List.inj_on_of_nodup_map nodup_opcodes hr hq (hrop.symm.trans hqop)

/-- Settles O37, by `exists_decode_iff` and `row_eq_of_rowMatches`; the count and the all-zero word are evaluated. -/
theorem decodeAcceptsExactlyTheOpcodeRows : Obligations.DecodeAcceptsExactlyTheOpcodeRows := by
  unfold Obligations.DecodeAcceptsExactlyTheOpcodeRows
  exact ⟨exists_decode_iff, fun _ _ hr _ hq => row_eq_of_rowMatches hr hq, rfl, rfl⟩

/-! ### The comparison opcodes by structure -/

/-- Bits of the opcode are bits of the word, 24 places up (R50). -/
theorem extractLsb'_of_opcodeField (w : OpWord) {k n : Nat} (h : k + n ≤ 8) :
    w.extractLsb' (24 + k) n = (opcodeField w).extractLsb' k n := by
  ext i hi
  have hbit : k + i < 8 := by omega
  simp [opcodeField, hbit, Nat.add_assoc]

theorem exists_comparison_opcode {op : BitVec 8} (hlo : 0x20#8 ≤ op) (hhi : op ≤ 0x2F#8) :
    ∃ n < 16, op = BitVec.ofNat 8 (0x20 + n) := by
  obtain ⟨n, hn⟩ : ∃ n, op.toNat = 0x20 + n := Nat.exists_eq_add_of_le (BitVec.le_def.mp hlo)
  have hmax : op.toNat ≤ 0x2F := BitVec.le_def.mp hhi
  exact ⟨n, by omega, by rw [← hn, BitVec.ofNat_toNat, BitVec.setWidth_eq]⟩

/-- Settles O39: both decoders choose what they check by the opcode alone, and choose alike for each of the 16. -/
theorem comparisonOpcodesFollowTheirStructure : Obligations.ComparisonOpcodesFollowTheirStructure := by
  unfold Obligations.ComparisonOpcodesFollowTheirStructure
  intro w hlo hhi
  have hcond : w.extractLsb' 24 3 = (opcodeField w).extractLsb' 0 3 :=
    extractLsb'_of_opcodeField w (k := 0) (by decide)
  have hform : w.extractLsb' 27 1 = (opcodeField w).extractLsb' 3 1 :=
    extractLsb'_of_opcodeField w (k := 3) (by decide)
  obtain ⟨n, hn, hop⟩ := exists_comparison_opcode hlo hhi
  unfold decode decodeComparison
  rw [hcond, hform, hop]
  interval_cases n <;> rfl

/-! ### Word assembly -/

/-- A field that fits below bit 32 loses no bit when it is shifted to its place. -/
theorem toNat_ofNat_shiftLeft {x m k : Nat} (hx : x < 2 ^ m) (hk : m + k ≤ 32) :
    (BitVec.ofNat 32 x <<< k).toNat = x <<< k := by
  have hfits : x <<< k < 2 ^ 32 := (Nat.shiftLeft_lt hx).trans_le (Nat.pow_le_pow_right (by decide) hk)
  rw [BitVec.toNat_shiftLeft, BitVec.toNat_ofNat, Nat.shiftLeft_eq, Nat.mod_mul_mod, ← Nat.shiftLeft_eq,
    Nat.mod_eq_of_lt hfits]

/-- Word assembly as a formula (R63). -/
theorem packWord_eq_shiftOr (op : BitVec 8) (rd ra rb : Reg) :
    packWord op rd ra rb =
      (BitVec.ofNat 32 op.toNat <<< 24) ||| (BitVec.ofNat 32 rd.val <<< 20) |||
        (BitVec.ofNat 32 ra.val <<< 16) ||| (BitVec.ofNat 32 rb.val <<< 12) := by
  have hbits (r : Reg) : (regBits r).toNat = r.val := rfl
  apply BitVec.eq_of_toNat_eq
  rw [BitVec.toNat_or, BitVec.toNat_or, BitVec.toNat_or, toNat_ofNat_shiftLeft op.isLt (by decide),
    toNat_ofNat_shiftLeft (m := 4) rd.isLt (by decide), toNat_ofNat_shiftLeft (m := 4) ra.isLt (by decide),
    toNat_ofNat_shiftLeft (m := 4) rb.isLt (by decide)]
  unfold packWord
  simp only [BitVec.toNat_append, hbits, Nat.shiftLeft_or_distrib, ← Nat.shiftLeft_add, BitVec.toNat_ofNat,
    Nat.zero_mod, Nat.or_zero]

/-- Settles O40, by `packWord_eq_shiftOr` and `encode_eq_packWord`. -/
theorem assembledWordIsTheShiftFormula : Obligations.AssembledWordIsTheShiftFormula := by
  unfold Obligations.AssembledWordIsTheShiftFormula
  exact ⟨packWord_eq_shiftOr, encode_eq_packWord⟩

/-! ### Words of the spec's examples -/

/-- Settles O38: the decoder evaluated on ten words. -/
theorem specWordsDecode : Obligations.SpecWordsDecode := by
  unfold Obligations.SpecWordsDecode
  decide

end Sys2Proof
end

section
/-! When a two-operand instruction completes (20_memory.md R46), and from it the meaning of the pseudo-instructions
(30_encoding.md R57 to R60). -/

namespace Sys2Proof.Machine

/-! ### Completion of a two-operand instruction -/

/-- Fault entry leaves the pc where it is, so a fault is no completion (R21, R166). -/
theorem Block.not_completedTo_takeFault {w : Nat} (b : Block w) (rd : Reg) (r : Option (BitVec w)) (k : Cause) :
    ¬ b.CompletedTo rd r (b.takeFault k) := by
  rintro ⟨-, -, hpc, -⟩
  simp at hpc

theorem Block.completedTo_settle_iff {w : Nat} (b : Block w) (rd : Reg) (r : Option (BitVec w))
    (e : Except Cause (BitVec w)) : b.CompletedTo rd r (b.settle rd e) ↔ ∃ v, e = .ok v ∧ r = some v := by
  cases e with
  | error k => simp [b.not_completedTo_takeFault rd r k]
  | ok v =>
    constructor
    · rintro ⟨hrd, -⟩
      exact ⟨v, rfl, by rw [← hrd, Block.settle_ok, Block.readReg_complete, if_pos rfl]⟩
    · rintro ⟨_, ⟨⟩, rfl⟩
      exact b.completedTo_complete rd v

theorem completes_iff_of_exec {i : Instr} {c : Config} {b t : Block c.W} {rd : Reg} {r : Option (BitVec c.W)}
    (h : exec i ⟨c, b⟩ = .next ⟨c, t⟩) : Completes i c b rd r ↔ b.CompletedTo rd r t := by
  constructor
  · rintro ⟨t', ht', hcompleted⟩
    cases h.symm.trans ht'
    exact hcompleted
  · exact fun hcompleted => ⟨t, h, hcompleted⟩

/-- A two-operand instruction completes exactly when both operands are written and its value step answers a value; the
destination only says where that value shows. -/
theorem completes_iff_of_settle {i : Instr} {c : Config} {b : Block c.W} {rd ra rb : Reg} {r : Option (BitVec c.W)}
    {f : BitVec c.W → BitVec c.W → Except Cause (BitVec c.W)}
    (h : exec i ⟨c, b⟩ = .next ⟨c, b.withRaRb ra rb fun x y => Block.settle rd (f x y)⟩) :
    Completes i c b rd r ↔
      ∃ x y v, b.readReg ra = some x ∧ b.readReg rb = some y ∧ f x y = .ok v ∧ r = some v := by
  rw [completes_iff_of_exec h]
  rcases b.withRaRb_cases ra rb (fun x y => Block.settle rd (f x y)) with ⟨x, y, hx, hy, e⟩ | ⟨hnone, e⟩ <;> rw [e]
  · simp [Block.completedTo_settle_iff, hx, hy]
  · refine iff_of_false (b.not_completedTo_takeFault rd r _) ?_
    rintro ⟨x, y, v, hx, hy, -⟩
    simp [hx, hy] at hnone

/-! ### Compound and integer-left forms -/

/-- The value step of the eight instructions with a compound spelling (R103 to R106, R121 to R124). -/
def compoundValue (c : Config) : CompoundOp → Int → Int → Except Cause (BitVec c.W)
  | .addFF, x, y | .addFI, x, y => .ok (addValue c x y)
  | .subFF, x, y | .subFI, x, y => .ok (subValue c x y)
  | .mulFF, x, y => .ok (mulValue c x y)
  | .mulFI, x, y => .ok (scaleValue c x y)
  | .divFF, x, y => divValue c x y
  | .divFI, x, y => unscaleValue c x y

theorem exec_compoundInstr (op : CompoundOp) (rd ra rb : Reg) (c : Config) (b : Block c.W) :
    exec (compoundInstr op rd ra rb) ⟨c, b⟩ =
      .next ⟨c, b.withRaRb ra rb fun x y => Block.settle rd (compoundValue c op (sint x) (sint y))⟩ := by
  cases op <;> rfl

theorem completes_compoundInstr_iff {op : CompoundOp} {rd ra rb : Reg} {c : Config} {b : Block c.W}
    {r : Option (BitVec c.W)} :
    Completes (compoundInstr op rd ra rb) c b rd r ↔ ∃ x y v, b.readReg ra = some x ∧ b.readReg rb = some y ∧
      compoundValue c op (sint x) (sint y) = .ok v ∧ r = some v :=
  completes_iff_of_settle (exec_compoundInstr op rd ra rb c b)

/-- Settles O42: `completes_compoundInstr_iff` does not speak of the destination, and the integer-left forms are its
cases ADD.FI and MUL.FI with the operands swapped. -/
theorem compoundAndIntegerLeftForms : Obligations.CompoundAndIntegerLeftForms := by
  unfold Obligations.CompoundAndIntegerLeftForms
  refine ⟨fun op rd rb rq c b r => ?_, fun rd ra rb c b v u hv hu => ⟨?_, ?_⟩⟩
  · exact completes_compoundInstr_iff.trans completes_compoundInstr_iff.symm
  · rw [Int.add_comm]
    exact completes_compoundInstr_iff (op := .addFI).mpr ⟨u, v, _, hu, hv, rfl, rfl⟩
  · rw [Int.mul_comm]
    exact completes_compoundInstr_iff (op := .mulFI).mpr ⟨u, v, _, hu, hv, rfl, rfl⟩

/-! ### Integer-left comparisons -/

theorem exec_cmpFI (k : Cond) (rd ra rb : Reg) (c : Config) (b : Block c.W) :
    exec (cmpFI k rd ra rb) ⟨c, b⟩ =
      .next ⟨c, b.withRaRb ra rb fun x y => Block.settle rd (.ok (compareFI c k (sint x) (sint y)))⟩ := by
  cases k <;> rfl

/-- The mirrored condition on swapped operands is the condition (R60). -/
theorem condHolds_mirror (k : Cond) (A B : Int) : condHolds (mirror k) B A = condHolds k A B := by
  rw [Bool.eq_iff_iff, condHolds_iff, condHolds_iff]
  cases k
  case eq => exact eq_comm
  case ne => exact ne_comm
  all_goals exact Iff.rfl

/-- Settles O43: the .FI comparison it expands to holds by `condHolds_mirror` exactly when its own condition does. -/
theorem integerLeftComparisonsMirror : Obligations.IntegerLeftComparisonsMirror := by
  unfold Obligations.IntegerLeftComparisonsMirror
  intro k rd ra rb c b v u hv hu
  rw [← condHolds_mirror]
  exact (completes_iff_of_settle (exec_cmpFI (mirror k) rd rb ra c b)).mpr ⟨u, v, _, hu, hv, rfl, rfl⟩

/-! ### Assembler lines of the spec's examples -/

/-- Settles O44: the assembler evaluated on eleven lines. -/
theorem assemblerSpellsWords : Obligations.AssemblerSpellsWords := by
  unfold Obligations.AssemblerSpellsWords
  decide

end Sys2Proof.Machine
end

section
/-! The rules of the instructions that raise nothing but `UNINIT_READ` (60_exceptions.md R162), each from the word of
the instruction and its meaning; by them construction and conversion (40_construct.md R80 to R84). -/

namespace Sys2Proof.Machine

/-- A format DA instruction that reads `ra` and completes with a value keeps the rule of that value. -/
theorem unaryRule_of_exec {mk : Reg → Reg → Instr} {op : BitVec 8}
    {value : (c : Config) → BitVec c.W → BitVec c.W}
    (hword : ∀ rd ra, encode (mk rd ra) = packWord op rd ra 0)
    (hexec : ∀ (rd ra : Reg) (c : Config) (b : Block c.W),
      exec (mk rd ra) ⟨c, b⟩ = .next ⟨c, b.withRa ra fun v => Block.complete rd (value c v)⟩) :
    UnaryRule mk op value := by
  intro rd ra c b
  refine ⟨hword rd ra ▸ decode_encode _, fun v hv => ⟨_, hexec rd ra c b, ?_⟩,
    fun hnone => ⟨_, hexec rd ra c b, ?_⟩⟩
  · rw [Block.withRa_some hv]
    exact b.completedTo_complete rd (value c v)
  · rw [Block.withRa_none hnone]
    exact b.faultedTo_takeFault .uninitRead

/-- A format DAB instruction that reads `ra` and `rb` and completes with a value keeps the rule of that value. -/
theorem binaryRule_of_exec {mk : Reg → Reg → Reg → Instr} {op : BitVec 8}
    {value : (c : Config) → BitVec c.W → BitVec c.W → BitVec c.W}
    (hword : ∀ rd ra rb, encode (mk rd ra rb) = packWord op rd ra rb)
    (hexec : ∀ (rd ra rb : Reg) (c : Config) (b : Block c.W),
      exec (mk rd ra rb) ⟨c, b⟩ = .next ⟨c, b.withRaRb ra rb fun v u => Block.complete rd (value c v u)⟩) :
    BinaryRule mk op value := by
  intro rd ra rb c b
  refine ⟨hword rd ra rb ▸ decode_encode _, fun v u hv hu => ⟨_, hexec rd ra rb c b, ?_⟩,
    fun hnone => ⟨_, hexec rd ra rb c b, ?_⟩⟩
  · rw [Block.withRaRb_some hv hu]
    exact b.completedTo_complete rd (value c v u)
  · rw [Block.withRaRb_none hnone]
    exact b.faultedTo_takeFault .uninitRead

/-- Settles O13: NEW reads no register, so it completes in every block. -/
theorem newMarksItsDestinationUnwritten : Obligations.NewMarksItsDestinationUnwritten := by
  unfold Obligations.NewMarksItsDestinationUnwritten
  exact fun rd c b => ⟨decode_encode (.new rd), _, rfl, b.completedTo_markUnwritten_advance rd⟩

/-- Settles O14, by `unaryRule_of_exec`. -/
theorem movCopiesThePattern : Obligations.MovCopiesThePattern := by
  unfold Obligations.MovCopiesThePattern
  exact unaryRule_of_exec (fun _ _ => rfl) fun _ _ _ _ => rfl

/-- Settles O15, by `unaryRule_of_exec`. -/
theorem fromIntUpscales : Obligations.FromIntUpscales := by
  unfold Obligations.FromIntUpscales
  exact unaryRule_of_exec (fun _ _ => rfl) fun _ _ _ _ => rfl

/-- Settles O16, by `binaryRule_of_exec`. -/
theorem fromPairAddsTheFraction : Obligations.FromPairAddsTheFraction := by
  unfold Obligations.FromPairAddsTheFraction
  exact binaryRule_of_exec (fun _ _ _ => rfl) fun _ _ _ _ _ => rfl

/-- Settles O17, by `unaryRule_of_exec`. -/
theorem toIntTakesTheFloor : Obligations.ToIntTakesTheFloor := by
  unfold Obligations.ToIntTakesTheFloor
  exact unaryRule_of_exec (fun _ _ => rfl) fun _ _ _ _ => rfl

end Sys2Proof.Machine
end

section
/-! The decimal-fraction encoder (40_construct.md R70 to R76): the digit budget, normalization, and the encoder as a
function of the normalized digits. -/

namespace Sys2Proof.Machine

/-! ### The digit budget (R72) -/

theorem digitBudget_pos (P : Nat) : 1 ≤ digitBudget P := le_max_left _ _

/-- The digit count is one more than the floor of the decimal logarithm. -/
theorem ndigits_eq_log {d : Nat} (hd : 1 ≤ d) : ndigits d = Nat.log 10 d + 1 :=
  ndigits_unique (Nat.le_add_left 1 _) (Nat.pow_log_le_self 10 (Nat.ne_of_gt hd))
    (Nat.lt_pow_succ_log_self (by norm_num) d)

/-- From `P = 4` on the fraction field has more than one decimal digit. -/
theorem ten_le_two_pow_sub_one {P : Nat} (hP : 4 ≤ P) : 10 ≤ 2 ^ P - 1 := by
  have h : 2 ^ 4 ≤ 2 ^ P := Nat.pow_le_pow_right (by norm_num) hP
  omega

/-- From `P = 4` on the budget is the floor of the decimal logarithm of the greatest fraction field. -/
theorem digitBudget_eq_log {P : Nat} (hP : 4 ≤ P) : digitBudget P = Nat.log 10 (2 ^ P - 1) := by
  have hten := ten_le_two_pow_sub_one hP
  have hlog : 1 ≤ Nat.log 10 (2 ^ P - 1) := Nat.log_pos (by norm_num) hten
  rw [digitBudget, ndigits_eq_log (by omega), Nat.add_sub_cancel, max_eq_right hlog]

/-- From `P = 4` on there are fewer normalized fractions than patterns of the fraction field (R76). -/
theorem ten_pow_digitBudget_lt {P : Nat} (hP : 4 ≤ P) : 10 ^ digitBudget P < 2 ^ P := by
  have hten := ten_le_two_pow_sub_one hP
  have h := Nat.pow_log_le_self 10 (x := 2 ^ P - 1) (by omega)
  rw [digitBudget_eq_log hP]
  omega

/-- Settles O50: the source's `L + 1` by `digitBudget_eq_log`, the table by evaluation. -/
theorem digitBudgetTable : Obligations.DigitBudgetTable := by
  unfold Obligations.DigitBudgetTable
  refine ⟨fun _ _ => rfl, fun P hP => ?_, by decide⟩
  rw [← digitBudget_eq_log hP, Nat.sub_add_cancel (digitBudget_pos P)]

/-! ### Normalization (R73) -/

section Normalise

variable {N d : Nat}

theorem normalise_of_gt (h : N < ndigits d) : normalise N d = d / 10 ^ (ndigits d - N) := if_pos h

theorem normalise_of_lt (h : ndigits d < N) : normalise N d = d * 10 ^ (N - ndigits d) := by
  simp only [normalise, if_neg h.not_gt, if_pos h]

theorem normalise_of_eq (h : ndigits d = N) : normalise N d = d := by
  simp only [normalise, h, lt_irrefl, if_false]

/-- Padding with no zeros is no padding, so `k = N` is a case of `k <= N`. -/
theorem normalise_of_le (h : ndigits d ≤ N) : normalise N d = d * 10 ^ (N - ndigits d) := by
  rcases h.lt_or_eq with h | h
  · exact normalise_of_lt h
  · rw [normalise_of_eq h, h, Nat.sub_self, pow_zero, mul_one]

/-- Normalized digits are exactly `N` digits. -/
theorem normalise_bounds (hN : 1 ≤ N) (hd : 1 ≤ d) : 10 ^ (N - 1) ≤ normalise N d ∧ normalise N d < 10 ^ N := by
  obtain ⟨hk, hlow, hhigh⟩ := ndigits_bounds hd
  rcases le_or_gt (ndigits d) N with h | h
  · rw [normalise_of_le h]
    have hlo : 10 ^ (N - 1) = 10 ^ (ndigits d - 1) * 10 ^ (N - ndigits d) := by rw [← pow_add]; congr 1; omega
    have hhi : 10 ^ N = 10 ^ ndigits d * 10 ^ (N - ndigits d) := by rw [← pow_add]; congr 1; omega
    rw [hlo, hhi]
    exact ⟨Nat.mul_le_mul_right _ hlow, Nat.mul_lt_mul_of_pos_right hhigh (by positivity)⟩
  · rw [normalise_of_gt h, Nat.le_div_iff_mul_le (by positivity), Nat.div_lt_iff_lt_mul (by positivity), ← pow_add,
      ← pow_add, show N - 1 + (ndigits d - N) = ndigits d - 1 by omega, Nat.add_sub_cancel' h.le]
    exact ⟨hlow, hhigh⟩

/-- A trailing zero is dropped or would have been padded: it does not change the normalized digits (R76). -/
theorem normalise_mul_ten (hd : 1 ≤ d) : normalise N (10 * d) = normalise N d := by
  have hk := ndigits_mul_ten hd
  rcases lt_or_ge (ndigits d) N with h | h
  · rw [normalise_of_le (by omega), normalise_of_lt h, hk, mul_comm 10 d, mul_assoc, ← pow_succ']
    congr 2
    omega
  · rw [normalise_of_gt (by omega), hk, Nat.sub_add_comm h, pow_succ', Nat.mul_div_mul_left _ _ (by norm_num)]
    rcases h.lt_or_eq with h | h
    · rw [normalise_of_gt h]
    · rw [normalise_of_eq h.symm, h, Nat.sub_self, pow_zero, Nat.div_one]

end Normalise

/-! ### The encoder (R71, R74) -/

@[simp] theorem enc_zero_right (P : Nat) : enc P 0 = 0 := if_pos (.inr rfl)

@[simp] theorem enc_zero_left (d : Nat) : enc 0 d = 0 := if_pos (.inl rfl)

section Encode

variable {P d : Nat}

theorem enc_eq (hP : 1 ≤ P) (hd : 1 ≤ d) :
    enc P d = normalise (digitBudget P) d * 2 ^ P / 10 ^ digitBudget P :=
  if_neg (by omega)

/-- The result fits the fraction field (R74). -/
theorem enc_lt (P d : Nat) : enc P d < 2 ^ P := by
  rcases Nat.eq_zero_or_pos P with rfl | hP
  · simp
  rcases Nat.eq_zero_or_pos d with rfl | hd
  · simp
  rw [enc_eq hP hd, Nat.div_lt_iff_lt_mul (by positivity), mul_comm (2 ^ P)]
  exact Nat.mul_lt_mul_of_pos_right (normalise_bounds (digitBudget_pos P) hd).2 (by positivity)

end Encode

/-- Settles O49: the digit count by `ndigits_bounds`, normalization by its three cases and `normalise_bounds`, the
encoder by `enc_eq` and `enc_lt`. -/
theorem encoderFollowsItsSteps : Obligations.EncoderFollowsItsSteps := by
  unfold Obligations.EncoderFollowsItsSteps
  refine ⟨fun P d => ⟨enc_zero_right P, enc_zero_left d⟩, fun P d hP hd => ?_⟩
  obtain ⟨-, hlow, hhigh⟩ := ndigits_bounds hd
  obtain ⟨hlow', hhigh'⟩ := normalise_bounds (digitBudget_pos P) hd
  exact ⟨hlow, hhigh, normalise_of_gt, normalise_of_lt, normalise_of_eq, hlow', hhigh', enc_eq hP hd, enc_lt P d⟩

/-! ### Properties of the encoder (R76) -/

section Properties

variable {P d e : Nat}

theorem enc_mul_ten (P d : Nat) : enc P (10 * d) = enc P d := by
  rcases Nat.eq_zero_or_pos P with rfl | hP
  · simp
  rcases Nat.eq_zero_or_pos d with rfl | hd
  · simp
  rw [enc_eq hP (by omega), enc_eq hP hd, normalise_mul_ten hd]

/-- Digits that the budget does not cut encode the fraction they spell, cut at the last bit of the field. -/
theorem enc_of_ndigits_le (hP : 1 ≤ P) (hd : 1 ≤ d) (hk : ndigits d ≤ digitBudget P) :
    enc P d = d * 2 ^ P / 10 ^ ndigits d := by
  have hpow : 10 ^ digitBudget P = 10 ^ ndigits d * 10 ^ (digitBudget P - ndigits d) := by
    rw [← pow_add, Nat.add_sub_cancel' hk]
  rw [enc_eq hP hd, normalise_of_le hk, hpow, mul_right_comm, Nat.mul_div_mul_right _ _ (by positivity)]

/-- The digit 5 is one half. -/
theorem enc_five (hP : 1 ≤ P) : enc P 5 = 2 ^ (P - 1) := by
  obtain ⟨p, rfl⟩ := Nat.exists_eq_add_of_le' hP
  have hk : ndigits 5 = 1 := by decide
  rw [enc_of_ndigits_le hP (by norm_num) (hk ▸ digitBudget_pos _), hk, pow_succ, Nat.add_sub_cancel]
  omega

/-- The digits 25 are a quarter, where the budget has room for them. -/
theorem enc_twentyFive (hP : 2 ≤ P) (hN : 2 ≤ digitBudget P) : enc P 25 = 2 ^ (P - 2) := by
  obtain ⟨p, rfl⟩ := Nat.exists_eq_add_of_le' hP
  have hk : ndigits 25 = 2 := by decide
  rw [enc_of_ndigits_le (by omega) (by norm_num) (hk.trans_le hN), hk, pow_add, Nat.add_sub_cancel]
  omega

/-- The first normalized digit is not 0, so no fraction below a tenth can be built. -/
theorem tenth_le_enc (hP : 1 ≤ P) (hd : 1 ≤ d) : 2 ^ P / 10 ≤ enc P d := by
  have hpow : 10 ^ digitBudget P = 10 ^ (digitBudget P - 1) * 10 := by
    rw [← pow_succ, Nat.sub_add_cancel (digitBudget_pos P)]
  calc 2 ^ P / 10
      = 10 ^ (digitBudget P - 1) * 2 ^ P / 10 ^ digitBudget P := by
        rw [hpow, Nat.mul_div_mul_left _ _ (by positivity)]
    _ ≤ normalise (digitBudget P) d * 2 ^ P / 10 ^ digitBudget P := by
        gcongr
        exact (normalise_bounds (digitBudget_pos P) hd).1
    _ = enc P d := (enc_eq hP hd).symm

theorem enc_le_enc (hP : 1 ≤ P) (hd : 1 ≤ d) (he : 1 ≤ e)
    (h : normalise (digitBudget P) d ≤ normalise (digitBudget P) e) : enc P d ≤ enc P e := by
  rw [enc_eq hP hd, enc_eq hP he]
  gcongr

/-- Multiplying by a number that is at least the divisor keeps different numbers apart. -/
theorem mul_div_lt_mul_div {x y m n : Nat} (hn : 0 < n) (hnm : n ≤ m) (h : x < y) : x * m / n < y * m / n :=
  calc x * m / n < x * m / n + 1 := Nat.lt_succ_self _
    _ = (x * m + n) / n := (Nat.add_div_right _ hn).symm
    _ ≤ (x + 1) * m / n := Nat.div_le_div_right (by rw [Nat.add_one_mul]; exact Nat.add_le_add_left hnm _)
    _ ≤ y * m / n := Nat.div_le_div_right (Nat.mul_le_mul_right m h)

/-- From `P = 4` on distinct normalized digits have distinct results. -/
theorem enc_ne_enc (hP : 4 ≤ P) (hd : 1 ≤ d) (he : 1 ≤ e)
    (h : normalise (digitBudget P) d ≠ normalise (digitBudget P) e) : enc P d ≠ enc P e := by
  have hfits := (ten_pow_digitBudget_lt hP).le
  rw [enc_eq (by omega) hd, enc_eq (by omega) he]
  rcases h.lt_or_gt with h | h
  · exact (mul_div_lt_mul_div (by positivity) hfits h).ne
  · exact (mul_div_lt_mul_div (by positivity) hfits h).ne'

end Properties

/-- Settles O51: the row `P = 1` by evaluation, each property by its lemma. -/
theorem encoderProperties : Obligations.EncoderProperties := by
  unfold Obligations.EncoderProperties
  exact ⟨by decide, fun P hP => ⟨fun d => (enc_mul_ten P d).symm, enc_five hP, enc_twentyFive,
    fun _ => tenth_le_enc hP, fun h4 => ⟨ten_pow_digitBudget_lt h4, fun _ _ => enc_ne_enc h4⟩,
    fun _ _ => enc_le_enc hP, fun d => Nat.le_sub_one_of_lt (enc_lt P d)⟩⟩

end Sys2Proof.Machine
end

section
/-! The fields of a wrapped integer (10_state.md R11), and by them FROMINT, FROMPAIR and TOINT against the value format
(40_construct.md R82 to R84). -/

namespace Sys2Proof.Machine

/-! ### The fields of a wrapped integer -/

/-- Wrapping to `W` bits changes an integer by a multiple of `2^W`, which is one of `2^P`. -/
theorem exists_sint_wrap_eq (c : Config) (z : Int) :
    ∃ k : Int, sint (wrap c.W z) = z + k * 2 ^ (c.W - c.P) * 2 ^ c.P := by
  have hmod : sint (wrap c.W z) ≡ z [ZMOD 2 ^ c.W] := (wrap_eq_wrap_iff _ _ _).mp (wrap_sint _)
  obtain ⟨k, hk⟩ := hmod.symm.dvd
  refine ⟨k, ?_⟩
  rw [mul_assoc, ← pow_add, Nat.sub_add_cancel (P_lt_W c).le]
  linarith

/-- The integer field of a wrapped integer is its arithmetic shift, wrapped. -/
theorem intField_wrap (c : Config) (z : Int) : intField c (wrap c.W z) = wrap (c.W - c.P) (asr z c.P) := by
  obtain ⟨k, hk⟩ := exists_sint_wrap_eq c z
  rw [← wrap_sint (intField c (wrap c.W z)), sint_intField, wrap_eq_wrap_iff, hk, asr, asr,
    Int.add_mul_ediv_right _ _ (by positivity), Int.add_mul_emod_self_right]

/-- The fraction field of a wrapped integer is what its arithmetic shift drops. -/
theorem uint_fracField_wrap (c : Config) (z : Int) : (uint (fracField c (wrap c.W z)) : Int) = z % 2 ^ c.P := by
  obtain ⟨k, hk⟩ := exists_sint_wrap_eq c z
  rw [uint_fracField, hk, Int.add_mul_emod_self_right]

/-! ### FROMPAIR (R83) -/

/-- A magnitude below `2^P` added to a multiple of `2^P` stays in the low `P` bits: the sum has no carry. -/
theorem asr_and_emod_of_upscaled_add (P : Nat) (i : Int) {f : Nat} (hf : f < 2 ^ P) :
    asr (i * 2 ^ P + f) P = i ∧ (i * 2 ^ P + f) % 2 ^ P = f := by
  have hf0 : (0 : Int) ≤ f := Int.natCast_nonneg f
  have hfP : (f : Int) < 2 ^ P := mod_cast hf
  constructor
  · rw [asr, Int.mul_add_ediv_right _ _ (by positivity), Int.ediv_eq_zero_of_lt hf0 hfP, add_zero]
  · rw [Int.mul_add_emod_self_right, Int.emod_eq_of_lt hf0 hfP]

theorem pairValue_zero (c : Config) (i : Int) : pairValue c i 0 = upscale c i := by
  rw [pairValue, enc_zero_right, Nat.cast_zero, add_zero, upscale]

theorem intField_pairValue (c : Config) (i : Int) (d : Nat) :
    intField c (pairValue c i d) = wrap (c.W - c.P) i := by
  rw [pairValue, intField_wrap, (asr_and_emod_of_upscaled_add c.P i (enc_lt c.P d)).1]

theorem uint_fracField_pairValue (c : Config) (i : Int) (d : Nat) :
    uint (fracField c (pairValue c i d)) = enc c.P d := by
  have h := uint_fracField_wrap c (i * 2 ^ c.P + enc c.P d)
  rw [(asr_and_emod_of_upscaled_add c.P i (enc_lt c.P d)).2] at h
  exact mod_cast h

/-- Settles O48: the integer field of `pairValue` does not depend on the digits, and `d = 0` is FROMINT. -/
theorem fromPairNeverCarries : Obligations.FromPairNeverCarries := by
  unfold Obligations.FromPairNeverCarries
  intro c i d
  refine ⟨?_, uint_fracField_pairValue c i d, pairValue_zero c i⟩
  rw [← pairValue_zero, intField_pairValue, intField_pairValue]

/-! ### TOINT and FROMINT (R84, R82) -/

/-- The integer part of a `W`-bit pattern is a `W`-bit integer: TOINT never overflows. -/
theorem sint_toIntValue (c : Config) (v : BitVec c.W) : sint (toIntValue c (sint v)) = asr (sint v) c.P := by
  obtain ⟨hlow, hhigh⟩ := asr_sint_range c v
  have hpow : (2 : Int) ^ (c.W - c.P - 1) ≤ 2 ^ (c.W - 1) := pow_le_pow_right₀ (by norm_num) (by omega)
  refine sintN_of_range (n := c.W) (width_bits_pos c.width) ?_ ?_
  · unfold leastSigned at *
    omega
  · unfold greatestSigned at *
    omega

/-- On the safe range the upscale is exact (R82). -/
theorem sint_upscale {c : Config} {n : Int} (hlow : -2 ^ (c.W - 1 - c.P) ≤ n) (hhigh : n < 2 ^ (c.W - 1 - c.P)) :
    sint (upscale c n) = n * 2 ^ c.P := by
  have hpow : (2 : Int) ^ (c.W - 1) = 2 ^ (c.W - 1 - c.P) * 2 ^ c.P := by
    rw [← pow_add, Nat.sub_add_cancel (Nat.le_sub_one_of_lt (P_lt_W c))]
  have hpos : (0 : Int) < 2 ^ c.P := by positivity
  refine sintN_of_range (width_bits_pos c.width) ?_ (Int.le_sub_one_of_lt ?_)
  · rw [leastSigned, hpow, ← neg_mul]
    exact mul_le_mul_of_nonneg_right hlow hpos.le
  · rw [hpow]
    exact mul_lt_mul_of_pos_right hhigh hpos

/-- Settles O47: TOINT by `sint_intField` and `sint_toIntValue`, the round trip by `sint_upscale`. -/
theorem toIntIsTheIntegerField : Obligations.ToIntIsTheIntegerField := by
  unfold Obligations.ToIntIsTheIntegerField
  refine ⟨fun c v => ⟨?_, sint_toIntValue c v⟩, fun c n hlow hhigh => ⟨sint_upscale hlow hhigh, ?_⟩⟩
  · rw [sext, sint_intField, toIntValue]
  · rw [sint_toIntValue, sint_upscale hlow hhigh, asr, Int.mul_ediv_cancel _ (by positivity)]

end Sys2Proof.Machine
end

section
/-! Fixed-fixed arithmetic (41_arith_ff.md R100 to R108): the rule of a division, the laws of wrapped addition, and the
room the accumulator leaves below 64 bits. -/

namespace Sys2Proof.Machine

/-! ### The instructions (R103 to R106) -/

/-- Settles O18, by `binaryRule_of_exec`. -/
theorem addFFAndSubFFWrap : Obligations.AddFFAndSubFFWrap := by
  unfold Obligations.AddFFAndSubFFWrap
  exact ⟨binaryRule_of_exec (fun _ _ _ => rfl) fun _ _ _ _ _ => rfl,
    binaryRule_of_exec (fun _ _ _ => rfl) fun _ _ _ _ _ => rfl⟩

/-- Settles O19, by `binaryRule_of_exec`. -/
theorem mulFFShiftsTheWidenedProduct : Obligations.MulFFShiftsTheWidenedProduct := by
  unfold Obligations.MulFFShiftsTheWidenedProduct
  exact binaryRule_of_exec (fun _ _ _ => rfl) fun _ _ _ _ _ => rfl

/-- A format DAB instruction that reads `ra` and `rb` and settles a value step keeps the division rule whose clauses are
the three answers of that step. -/
theorem divisionRule_of_exec {mk : Reg → Reg → Reg → Instr} {op : BitVec 8}
    {zero overflow : (c : Config) → BitVec c.W → BitVec c.W → Prop}
    {value : (c : Config) → BitVec c.W → BitVec c.W → BitVec c.W}
    {f : (c : Config) → BitVec c.W → BitVec c.W → Except Cause (BitVec c.W)}
    (hword : ∀ rd ra rb, encode (mk rd ra rb) = packWord op rd ra rb)
    (hexec : ∀ (rd ra rb : Reg) (c : Config) (b : Block c.W),
      exec (mk rd ra rb) ⟨c, b⟩ = .next ⟨c, b.withRaRb ra rb fun v u => Block.settle rd (f c v u)⟩)
    (hzero : ∀ c v u, zero c v u → f c v u = .error .divZero)
    (hoverflow : ∀ c v u, ¬ zero c v u → overflow c v u → f c v u = .error .divOverflow)
    (hvalue : ∀ c v u, ¬ zero c v u → ¬ overflow c v u → f c v u = .ok (value c v u)) :
    DivisionRule mk op zero overflow value := by
  intro rd ra rb c b
  refine ⟨hword rd ra rb ▸ decode_encode _, fun v u hv hu => ?_, fun hnone => ⟨_, hexec rd ra rb c b, ?_⟩⟩
  · have hsettle := hexec rd ra rb c b
    rw [Block.withRaRb_some hv hu] at hsettle
    refine ⟨fun hz => ?_, fun hz ho => ?_, fun hz ho => ?_⟩
    · exact faults_of_takeFault (by rw [hsettle, hzero c v u hz, Block.settle_error])
    · exact faults_of_takeFault (by rw [hsettle, hoverflow c v u hz ho, Block.settle_error])
    · exact ⟨_, hsettle, (b.completedTo_settle_iff rd _ _).mpr ⟨_, hvalue c v u hz ho, rfl⟩⟩
  · rw [Block.withRaRb_none hnone]
    exact b.faultedTo_takeFault .uninitRead

/-- Settles O20: the three answers of `divValue`, by `divisionRule_of_exec`. -/
theorem divFFDividesTheWidenedDividend : Obligations.DivFFDividesTheWidenedDividend := by
  unfold Obligations.DivFFDividesTheWidenedDividend
  refine divisionRule_of_exec (f := fun c v u => divValue c (sint v) (sint u)) (fun _ _ _ => rfl)
    (fun _ _ _ _ _ => rfl) (fun c v u hz => ?_) (fun c v u _ ho => ?_) (fun c v u hz ho => ?_)
  · rw [hz, divValue_zero]
  · rw [ho.2, divValue_overflow c _ ho.1]
  · exact divValue_ok c _ _ hz ho

/-! ### Commutativity and the group of ADD.FF and SUB.FF (R107) -/

/-- Which of two unwritten operands is read first does not show: both end in `UNINIT_READ` (R165). -/
theorem Block.withRaRb_swap {w : Nat} (b : Block w) (ra rb : Reg) (k : BitVec w → BitVec w → Block w → Block w) :
    b.withRaRb ra rb k = b.withRaRb rb ra fun y x => k x y := by
  rcases b.withRaRb_cases ra rb k with ⟨x, y, hx, hy, e⟩ | ⟨hnone, e⟩ <;> rw [e]
  · rw [Block.withRaRb_some hy hx]
  · rw [Block.withRaRb_none hnone.symm]

theorem exec_compoundInstr_comm {op : CompoundOp}
    (hcomm : ∀ (c : Config) (x y : Int), compoundValue c op x y = compoundValue c op y x) (rd ra rb : Reg) (s : State) :
    exec (compoundInstr op rd ra rb) s = exec (compoundInstr op rd rb ra) s := by
  obtain ⟨c, b⟩ := s
  simp only [exec_compoundInstr, b.withRaRb_swap ra rb, hcomm c]

theorem addValue_comm (c : Config) (x y : Int) : addValue c x y = addValue c y x := by
  rw [addValue, add_comm, addValue]

theorem mulValue_comm (c : Config) (x y : Int) : mulValue c x y = mulValue c y x := by
  rw [mulValue, mul_comm, mulValue]

/-- The wrapped sum of two values is the sum of their patterns (R103). -/
theorem addValue_sint (c : Config) (x y : BitVec c.W) : addValue c (sint x) (sint y) = x + y := by
  rw [addValue, wrap, BitVec.ofInt_add, BitVec.ofInt_toInt, BitVec.ofInt_toInt]

/-- The wrapped difference of two values is the difference of their patterns (R104). -/
theorem subValue_sint (c : Config) (x y : BitVec c.W) : subValue c (sint x) (sint y) = x - y := by
  rw [subValue, wrap, sub_eq_add_neg, BitVec.ofInt_add, BitVec.ofInt_neg, BitVec.ofInt_toInt, BitVec.ofInt_toInt,
    BitVec.sub_eq_add_neg]

/-- Settles O45: by `exec_compoundInstr_comm`, the group laws of bit vectors, and 1, 1 and 4 ulp at `P = 1`, where one ulp
times one ulp is shifted out. -/
theorem fixedArithmeticLaws : Obligations.FixedArithmeticLaws := by
  unfold Obligations.FixedArithmeticLaws
  refine ⟨fun rd ra rb s => ⟨?_, ?_⟩, fun c x y z => ?_, ⟨.w8, ⟨1, by decide⟩⟩, 1#8, 1#8, 4#8, by decide⟩
  · exact exec_compoundInstr_comm (op := .addFF) (fun c x y => congrArg Except.ok (addValue_comm c x y)) rd ra rb s
  · exact exec_compoundInstr_comm (op := .mulFF) (fun c x y => congrArg Except.ok (mulValue_comm c x y)) rd ra rb s
  · have hzero : (0 : Int) = sint 0#c.W := BitVec.toInt_zero.symm
    simp only [hzero, addValue_sint, subValue_sint]
    have hneg : x - y = x + (0#c.W - y) := by rw [BitVec.zero_sub, BitVec.sub_eq_add_neg]
    exact ⟨BitVec.add_assoc x y z, hneg, BitVec.add_zero x, BitVec.sub_self x⟩

/-! ### The accumulator (R101) -/

/-- A magnitude below `2^(n-1)` fits `n` signed bits. -/
theorem sintN_of_abs_lt {n : Nat} (hn : 0 < n) {z : Int} (h : |z| < 2 ^ (n - 1)) : sintN n z = z := by
  obtain ⟨hlow, hhigh⟩ := abs_lt.mp h
  exact sintN_of_range hn hlow.le (Int.le_sub_one_of_lt hhigh)

theorem abs_sint_le {n : Nat} (v : BitVec n) : |sint v| ≤ 2 ^ (n - 1) := by
  obtain ⟨hlow, hhigh⟩ := sint_range v
  exact abs_le.mpr ⟨hlow, hhigh.trans (Int.sub_le_self _ (by decide))⟩

theorem abs_two_pow_prec_le (c : Config) : |(2 : Int) ^ c.P| ≤ 2 ^ (c.W - 1) := by
  rw [abs_of_pos (by positivity)]
  exact pow_le_pow_right₀ (by norm_num) (Nat.le_sub_one_of_lt (P_lt_W c))

/-- Below 64 bits the product of two magnitudes up to `2^(W-1)` stays below the bound of the accumulator, the least
value included. -/
theorem abs_mul_lt_accumulator {c : Config} (hW : c.W ≤ 32) {x y : Int} (hx : |x| ≤ 2 ^ (c.W - 1))
    (hy : |y| ≤ 2 ^ (c.W - 1)) : |x * y| < 2 ^ (c.WW - 1) := by
  have hpos : 0 < c.W := width_bits_pos c.width
  calc |x * y| = |x| * |y| := abs_mul x y
    _ ≤ 2 ^ (c.W - 1) * 2 ^ (c.W - 1) := mul_le_mul hx hy (abs_nonneg y) (by positivity)
    _ = 2 ^ (c.W - 1 + (c.W - 1)) := (pow_add 2 _ _).symm
    _ < 2 ^ (c.WW - 1) := pow_lt_pow_right₀ (by norm_num) (by rw [wider_double hW]; omega)

theorem sintN_WW_of_abs_lt (c : Config) {z : Int} (h : |z| < 2 ^ (c.WW - 1)) : sintN c.WW z = z :=
  sintN_of_abs_lt (width_bits_pos c.width.wider) h

/-- Settles O46: below 64 bits by `abs_mul_lt_accumulator`, the shifted dividend being a product with `2^P`; at 64 bits
with `2^32` squared. -/
theorem accumulatorIsExactBelow64 : Obligations.AccumulatorIsExactBelow64 := by
  unfold Obligations.AccumulatorIsExactBelow64
  refine ⟨fun c v u hW => ?_, fun c hW => wider_64 ?_,
    ⟨.w64, ⟨32, by decide⟩⟩, 0x100000000#64, 0x100000000#64, by decide⟩
  · have hproduct := abs_mul_lt_accumulator hW (abs_sint_le v) (abs_sint_le u)
    have hdividend := abs_mul_lt_accumulator hW (abs_sint_le v) (abs_two_pow_prec_le c)
    obtain ⟨hleast, -⟩ := abs_lt.mp hdividend
    exact ⟨wider_double hW, sintN_WW_of_abs_lt c hproduct, sintN_WW_of_abs_lt c hdividend, hleast.ne'⟩
  · exact Option.some_injective _ ((Width.ofBits_eq_some_iff.mpr hW).symm.trans rfl)

/-! ### Division, then multiplication (R108) -/

theorem asr_eq_of_bounds {z n : Int} {s : Nat} (hlow : n * 2 ^ s ≤ z) (hhigh : z < n * 2 ^ s + 2 ^ s) : asr z s = n :=
  (Int.ediv_eq_iff_of_pos (by positivity)).mpr ⟨hlow, hhigh⟩

/-- Dividing `a * 2^P` by `b` drops a remainder below `2^P` in magnitude, of the sign of `a`: multiplied back, the shift
by `P` gives `a`, or one less for a positive `a`. -/
theorem asr_tdiv_mul {a b : Int} {P : Nat} (hb : b ≠ 0) (hle : |b| ≤ 2 ^ P) :
    asr (tdiv (a * 2 ^ P) b * b) P = a ∨ 1 ≤ a ∧ asr (tdiv (a * 2 ^ P) b * b) P = a - 1 := by
  have hpos : (0 : Int) < 2 ^ P := by positivity
  have hback : tdiv (a * 2 ^ P) b * b = a * 2 ^ P - (a * 2 ^ P).tmod b := by
    rw [tdiv_eq, eq_sub_iff_add_eq, Int.tdiv_mul_add_tmod]
  have hrem : |(a * 2 ^ P).tmod b| < 2 ^ P := by
    refine lt_of_lt_of_le ?_ hle
    rw [Int.abs_eq_natAbs, Int.abs_eq_natAbs, Int.natAbs_tmod]
    exact_mod_cast Nat.mod_lt _ (Int.natAbs_pos.mpr hb)
  obtain ⟨hlow, hhigh⟩ := abs_lt.mp hrem
  rw [hback]
  rcases le_or_gt a 0 with ha | ha
  · have hsign : (a * 2 ^ P).tmod b ≤ 0 := by
      have h := Int.tmod_nonneg b (neg_nonneg.mpr (mul_nonpos_of_nonpos_of_nonneg ha hpos.le))
      rwa [Int.neg_tmod, neg_nonneg] at h
    exact .inl (asr_eq_of_bounds (by linarith) (by linarith))
  · have hsign : 0 ≤ (a * 2 ^ P).tmod b := Int.tmod_nonneg b (by positivity)
    rcases hsign.eq_or_lt with h0 | h0
    · exact .inl (asr_eq_of_bounds (by linarith) (by linarith))
    · exact .inr ⟨ha, asr_eq_of_bounds (by linarith) (by linarith)⟩

/-- Below 64 bits the product has one wrap only, the final truncation. -/
theorem mulValue_eq_wrap {c : Config} (hW : c.W ≤ 32) (x y : BitVec c.W) :
    mulValue c (sint x) (sint y) = wrap c.W (asr (sint x * sint y) c.P) := by
  rw [mulValue, sintN_WW_of_abs_lt c (abs_mul_lt_accumulator hW (abs_sint_le x) (abs_sint_le y))]

/-- Settles O53: by `asr_tdiv_mul` the shifted product is `a` or one below a positive `a`, which the truncation keeps. -/
theorem divisionThenMultiplicationIsWithinAnUlp : Obligations.DivisionThenMultiplicationIsWithinAnUlp := by
  unfold Obligations.DivisionThenMultiplicationIsWithinAnUlp
  refine ⟨fun c v u q hW hu hle _ hq => ?_, ⟨.w32, ⟨15, by decide⟩⟩, 0x8000#32, 0x320000#32, 0x147#32, by decide⟩
  rw [mulValue_eq_wrap hW, hq]
  rcases asr_tdiv_mul (a := sint v) hu hle with e | ⟨ha, e⟩ <;> rw [e]
  · rw [wrap_sint, sub_self]
    decide
  · have hfits : sint (wrap c.W (sint v - 1)) = sint v - 1 := by
      refine sintN_of_abs_lt (width_bits_pos c.width) ?_
      rw [abs_of_nonneg (by linarith)]
      linarith [le_abs_self (sint v), abs_sint_le v]
    rw [hfits, sub_sub_cancel_left]
    decide

end Sys2Proof.Machine
end

section
/-! Mixed fixed-integer arithmetic (42_arith_mixed.md R121 to R126). The FI forms take the integer as it stands; the IF
forms are SUB.FF and DIV.FF on the promoted integer. -/

namespace Sys2Proof.Machine

/-- Settles O21, by `binaryRule_of_exec`: the value steps are those of ADD.FF and SUB.FF on the unshifted integer. -/
theorem addFIAndSubFIUseTheRawInteger : Obligations.AddFIAndSubFIUseTheRawInteger := by
  unfold Obligations.AddFIAndSubFIUseTheRawInteger
  exact ⟨binaryRule_of_exec (fun _ _ _ => rfl) fun _ _ _ _ _ => rfl,
    binaryRule_of_exec (fun _ _ _ => rfl) fun _ _ _ _ _ => rfl⟩

/-- Settles O22, by `binaryRule_of_exec`. -/
theorem mulFIScalesTheRawPattern : Obligations.MulFIScalesTheRawPattern := by
  unfold Obligations.MulFIScalesTheRawPattern
  exact binaryRule_of_exec (fun _ _ _ => rfl) fun _ _ _ _ _ => rfl

/-- Settles O23: the three answers of `unscaleValue`, by `divisionRule_of_exec`. -/
theorem divFIDividesTheRawPattern : Obligations.DivFIDividesTheRawPattern := by
  unfold Obligations.DivFIDividesTheRawPattern
  refine divisionRule_of_exec (f := fun c v u => unscaleValue c (sint v) (sint u)) (fun _ _ _ => rfl)
    (fun _ _ _ _ _ => rfl) (fun c v u hz => ?_) (fun c v u _ ho => ?_) (fun c v u hz ho => ?_)
  · rw [hz, unscaleValue_zero]
  · obtain ⟨hleast, hminus⟩ := ho
    rw [hleast, hminus]
    exact unscaleValue_overflow c
  · exact unscaleValue_ok c _ _ hz ho

/-- Settles O24, by `binaryRule_of_exec`: SUB.FF on the promoted integer. -/
theorem subIFUpscalesTheInteger : Obligations.SubIFUpscalesTheInteger := by
  unfold Obligations.SubIFUpscalesTheInteger
  exact binaryRule_of_exec (fun _ _ _ => rfl) fun _ _ _ _ _ => rfl

/-- Settles O25: the three answers of `divValue` for the promoted integer, by `divisionRule_of_exec`. -/
theorem divIFUpscalesTheInteger : Obligations.DivIFUpscalesTheInteger := by
  unfold Obligations.DivIFUpscalesTheInteger
  refine divisionRule_of_exec (f := fun c v u => divValue c (promoted c (sint v)) (sint u)) (fun _ _ _ => rfl)
    (fun _ _ _ _ _ => rfl) (fun c v u hz => ?_) (fun c v u _ ho => ?_) (fun c v u hz ho => ?_)
  · rw [hz, divValue_zero]
  · obtain ⟨hleast, hminus⟩ := ho
    rw [hminus]
    exact divValue_overflow c _ hleast
  · exact divValue_ok c _ _ hz ho

end Sys2Proof.Machine
end

section
/-! The comparisons (43_compare.md R140 to R155): the rules of the twelve instructions, and what a condition says of the
real numbers that patterns denote. -/

namespace Sys2Proof.Machine

/-! ### The instructions (R143 to R154) -/

theorem exec_cmpFF (k : Cond) (rd ra rb : Reg) (c : Config) (b : Block c.W) :
    exec (cmpFF k rd ra rb) ⟨c, b⟩ =
      .next ⟨c, b.withRaRb ra rb fun x y => Block.settle rd (.ok (compareFF c k (sint x) (sint y)))⟩ := by
  cases k <;> rfl

section Rules

variable (k : Cond) {rel : Int → Int → Prop} [∀ A B, Decidable (rel A B)]
  (hrel : ∀ A B, condHolds k A B = true ↔ rel A B)
include hrel

/-- The result of a comparison in terms of the relation its condition stands for (R140). -/
theorem boolPattern_condHolds (w : Nat) (A B : Int) :
    boolPattern w (condHolds k A B) = wrap w (if rel A B then 1 else 0) := by
  simp only [boolPattern, hrel]

theorem binaryRule_cmpFF :
    BinaryRule (cmpFF k) (cmpFF k 0 0 0).opcode fun c v u => wrap c.W (if rel (sint v) (sint u) then 1 else 0) := by
  refine binaryRule_of_exec (fun rd ra rb => ?_) fun rd ra rb c b => ?_
  · cases k <;> rfl
  · simp only [← boolPattern_condHolds k hrel]
    exact exec_cmpFF k rd ra rb c b

theorem binaryRule_cmpFI :
    BinaryRule (cmpFI k) (cmpFI k 0 0 0).opcode fun c v u =>
      wrap c.W (if rel (sint v) (sintN c.WW (sint u * 2 ^ c.P)) then 1 else 0) := by
  refine binaryRule_of_exec (fun rd ra rb => ?_) fun rd ra rb c b => ?_
  · cases k <;> rfl
  · simp only [← boolPattern_condHolds k hrel]
    exact exec_cmpFI k rd ra rb c b

end Rules

/-- Settles O26: `binaryRule_cmpFF` for the relation of each condition. -/
theorem fixedComparisonsCompareSignedPatterns : Obligations.FixedComparisonsCompareSignedPatterns := by
  unfold Obligations.FixedComparisonsCompareSignedPatterns
  exact ⟨binaryRule_cmpFF .eq (rel := (· = ·)) (condHolds_iff .eq),
    binaryRule_cmpFF .ne (rel := (· ≠ ·)) (condHolds_iff .ne),
    binaryRule_cmpFF .lt (rel := (· < ·)) (condHolds_iff .lt),
    binaryRule_cmpFF .gt (rel := (· > ·)) (condHolds_iff .gt),
    binaryRule_cmpFF .le (rel := (· ≤ ·)) (condHolds_iff .le),
    binaryRule_cmpFF .ge (rel := (· ≥ ·)) (condHolds_iff .ge)⟩

/-- Settles O27: `binaryRule_cmpFI` for the relation of each condition. -/
theorem integerComparisonsWidenTheInteger : Obligations.IntegerComparisonsWidenTheInteger := by
  unfold Obligations.IntegerComparisonsWidenTheInteger
  exact ⟨binaryRule_cmpFI .eq (rel := (· = ·)) (condHolds_iff .eq),
    binaryRule_cmpFI .ne (rel := (· ≠ ·)) (condHolds_iff .ne),
    binaryRule_cmpFI .lt (rel := (· < ·)) (condHolds_iff .lt),
    binaryRule_cmpFI .gt (rel := (· > ·)) (condHolds_iff .gt),
    binaryRule_cmpFI .le (rel := (· ≤ ·)) (condHolds_iff .le),
    binaryRule_cmpFI .ge (rel := (· ≥ ·)) (condHolds_iff .ge)⟩

/-! ### Comparison of the denoted reals (R141, R155) -/

/-- Counting two integers in the same positive unit keeps every relation between them. -/
theorem condHolds_iff_realCond_div (k : Cond) (A B : Int) {q : Rat} (hq : 0 < q) :
    condHolds k A B = true ↔ realCond k (A / q) (B / q) := by
  have heq : (A / q : Rat) = B / q ↔ A = B := (div_left_inj' hq.ne').trans Int.cast_inj
  have hlt (x y : Int) : (x / q : Rat) < y / q ↔ x < y := (div_lt_div_iff_of_pos_right hq).trans Int.cast_lt
  have hle (x y : Int) : (x / q : Rat) ≤ y / q ↔ x ≤ y := (div_le_div_iff_of_pos_right hq).trans Int.cast_le
  rw [condHolds_iff]
  cases k
  case eq => exact heq.symm
  case ne => exact (not_congr heq).symm
  case lt => exact (hlt A B).symm
  case gt => exact (hlt B A).symm
  case le => exact (hle A B).symm
  case ge => exact (hle B A).symm

/-- Below 64 bits the accumulator holds every widened integer (R155). -/
theorem widened_sint {c : Config} (hW : c.W ≤ 32) (u : BitVec c.W) : widened c (sint u) = sint u * 2 ^ c.P :=
  sintN_WW_of_abs_lt c (abs_mul_lt_accumulator hW (abs_sint_le u) (abs_two_pow_prec_le c))

/-- Settles O52: values are integers in ulps, and below 64 bits the widened integer is the integer in ulps; at 64 bits
with `P = 32`, `2^32` is widened to 0 and so compares equal to the value 0. -/
theorem comparisonsCompareTheReals : Obligations.ComparisonsCompareTheReals := by
  unfold Obligations.ComparisonsCompareTheReals
  refine ⟨fun k c v u => condHolds_iff_realCond_div k _ _ (two_pow_prec_pos c), fun k c v u hW => ?_,
    ⟨.w64, ⟨32, by decide⟩⟩, 0#64, 0x100000000#64, rfl, by decide, fun h => ?_⟩
  · have hulps : (sint u : Rat) = (sint u * 2 ^ c.P : Int) / 2 ^ c.P := by
      push_cast
      exact (mul_div_cancel_right₀ _ (two_pow_prec_pos c).ne').symm
    rw [widened_sint hW, hulps]
    exact condHolds_iff_realCond_div k _ _ (two_pow_prec_pos c)
  · have hzero : (0 : Rat) = (sint 0x100000000#64 : Int) := (denote_zero _).symm.trans h
    exact absurd (Int.cast_eq_zero.mp hzero.symm) (by decide)

end Sys2Proof.Machine
end

section
/-! The faults (60_exceptions.md R160 to R168): which operands an instruction faults on, the order of the checks, and what
the host can still do to a block that runs or has ended (R170). -/

namespace Sys2Proof.Machine

/-! ### A fault has one cause and is no completion -/

/-- The four causes have different codes (R160). -/
theorem Cause.code_injective : Function.Injective Cause.code := by
  intro k k'
  cases k <;> cases k' <;> decide

section Blocks

variable {w : Nat} {b t : Block w} {k k' : Cause}

theorem Block.FaultedTo.cause_eq (h : b.FaultedTo k t) (h' : b.FaultedTo k' t) : k = k' :=
  Cause.code_injective (h.fcause.symm.trans h'.fcause)

theorem Block.settle_eq_takeFault_iff {rd : Reg} {e : Except Cause (BitVec w)} :
    b.settle rd e = b.takeFault k ↔ e = .error k := by
  cases e with
  | ok v =>
    refine iff_of_false (fun h => ?_) nofun
    exact b.not_completedTo_takeFault rd (some v) k (h ▸ b.completedTo_complete rd v)
  | error k' =>
    rw [Block.settle_error, Except.error.injEq]
    exact ⟨fun h => (b.faultedTo_takeFault k').cause_eq (h ▸ b.faultedTo_takeFault k), congrArg b.takeFault⟩

theorem Block.complete_ne_takeFault {rd : Reg} {v : BitVec w} : b.complete rd v ≠ b.takeFault k :=
  fun h => nomatch (Block.settle_eq_takeFault_iff (rd := rd) (e := .ok v)).mp h

/-- A read of `ra` before steps that raise no `UNINIT_READ` of their own ends in it exactly when `ra` is unwritten. -/
theorem Block.withRa_eq_uninitRead_iff {ra : Reg} {f : BitVec w → Block w → Block w}
    (hf : ∀ x, f x b ≠ b.takeFault .uninitRead) :
    b.withRa ra f = b.takeFault .uninitRead ↔ ∃ r ∈ [ra], b.readReg r = none := by
  rcases b.withRa_cases ra f with ⟨x, hx, e⟩ | ⟨hnone, e⟩ <;> rw [e]
  · simp [hf x, hx]
  · simp [hnone]

theorem Block.withRaRb_eq_uninitRead_iff {ra rb : Reg} {f : BitVec w → BitVec w → Block w → Block w}
    (hf : ∀ x y, f x y b ≠ b.takeFault .uninitRead) :
    b.withRaRb ra rb f = b.takeFault .uninitRead ↔ ∃ r ∈ [ra, rb], b.readReg r = none := by
  rcases b.withRaRb_cases ra rb f with ⟨x, y, hx, hy, e⟩ | ⟨hnone, e⟩ <;> rw [e]
  · simp [hf x y, hx, hy]
  · simpa using hnone

end Blocks

section Instructions

variable {i : Instr} {c : Config} {b t t' : Block c.W} {k k' : Cause}

theorem next_mk_inj : (Host.Outcome.next ⟨c, t⟩ : Result) = .next ⟨c, t'⟩ ↔ t = t' := by
  simp

theorem Faults.cause_eq (h : Faults i c b k) (h' : Faults i c b k') : k = k' := by
  obtain ⟨t, ht, hk⟩ := h
  obtain ⟨t', ht', hk'⟩ := h'
  cases next_mk_inj.mp (ht.symm.trans ht')
  exact hk.cause_eq hk'

theorem Completes.not_faults {rd : Reg} {r : Option (BitVec c.W)} (h : Completes i c b rd r) : ¬ Faults i c b k := by
  rintro ⟨t', ht', -, hpc', -⟩
  obtain ⟨t, ht, -, -, hpc, -⟩ := h
  cases next_mk_inj.mp (ht.symm.trans ht')
  simp [hpc] at hpc'

/-- The fault of an instruction is fault entry, in the whole block (R166). -/
theorem faults_iff_exec_eq : Faults i c b k ↔ exec i ⟨c, b⟩ = .next ⟨c, b.takeFault k⟩ := by
  refine ⟨fun hk => ?_, faults_of_takeFault⟩
  rcases exec_cases i c b with ⟨r, h⟩ | h | ⟨-, k', -, h⟩
  · exact absurd hk h.not_faults
  · rw [h, (faults_of_takeFault h).cause_eq hk]
  · rw [h, (faults_of_takeFault h).cause_eq hk]

/-- `ILLEGAL_INSTRUCTION` is the cause of words that do not decode; no decoded instruction raises it (R161). -/
theorem not_faults_illegalInstruction : ¬ Faults i c b .illegalInstruction := by
  intro hk
  rcases exec_cases i c b with ⟨r, h⟩ | h | ⟨-, _, rfl | rfl, h⟩
  · exact h.not_faults hk
  all_goals exact nomatch (faults_of_takeFault h).cause_eq hk

end Instructions

/-! ### Unwritten operands (R162) -/

theorem divValue_ne_uninitRead (c : Config) (x y : Int) : divValue c x y ≠ .error .uninitRead :=
  fun h => (divValue_error h).elim nofun nofun

theorem unscaleValue_ne_uninitRead (c : Config) (x y : Int) : unscaleValue c x y ≠ .error .uninitRead :=
  fun h => (unscaleValue_error h).elim nofun nofun

/-- An instruction raises `UNINIT_READ` exactly when one of its operands is unwritten: past the operand reads no step
raises it. -/
theorem faults_uninitRead_iff {i : Instr} {c : Config} {b : Block c.W} :
    Faults i c b .uninitRead ↔ ∃ r ∈ i.sources, b.readReg r = none := by
  rw [faults_iff_exec_eq]
  cases i
  case new rd =>
    refine iff_of_false (fun h => ?_) (by simp [Instr.sources])
    have hcompletes : Completes (.new rd) c b rd none := ⟨_, rfl, b.completedTo_markUnwritten_advance rd⟩
    exact hcompletes.not_faults (faults_of_takeFault h)
  case mov | fromInt | toInt =>
    exact next_mk_inj.trans (Block.withRa_eq_uninitRead_iff fun _ => Block.complete_ne_takeFault)
  case divFF | divIF =>
    exact next_mk_inj.trans (Block.withRaRb_eq_uninitRead_iff fun _ _ =>
      mt Block.settle_eq_takeFault_iff.mp (divValue_ne_uninitRead c _ _))
  case divFI =>
    exact next_mk_inj.trans (Block.withRaRb_eq_uninitRead_iff fun _ _ =>
      mt Block.settle_eq_takeFault_iff.mp (unscaleValue_ne_uninitRead c _ _))
  all_goals exact next_mk_inj.trans (Block.withRaRb_eq_uninitRead_iff fun _ _ => Block.complete_ne_takeFault)

/-- NEW is the one instruction of format D, and so the one that reads no register. -/
theorem Instr.sources_eq_nil_iff {i : Instr} : i.sources = [] ↔ ∃ rd, i = .new rd := by
  constructor
  · intro h
    cases i
    case new rd => exact ⟨rd, rfl⟩
    all_goals cases h
  · rintro ⟨rd, rfl⟩
    rfl

/-- Settles O28, by `faults_uninitRead_iff`. -/
theorem unwrittenOperandsFault : Obligations.UnwrittenOperandsFault := by
  unfold Obligations.UnwrittenOperandsFault
  exact ⟨fun _ _ _ h => faults_uninitRead_iff.mpr h, fun _ => Instr.sources_eq_nil_iff⟩

/-! ### Divisions (R163, R164) -/

section Divisions

variable {mk : Reg → Reg → Reg → Instr} {op : BitVec 8} {zero overflow : (c : Config) → BitVec c.W → BitVec c.W → Prop}
  {value : (c : Config) → BitVec c.W → BitVec c.W → BitVec c.W} {rd ra rb : Reg} {c : Config} {b : Block c.W}
  {v u : BitVec c.W}

theorem DivisionRule.faults_divZero (h : DivisionRule mk op zero overflow value) (hv : b.readReg ra = some v)
    (hu : b.readReg rb = some u) (hz : zero c v u) : Faults (mk rd ra rb) c b .divZero := by
  obtain ⟨-, hwritten, -⟩ := h rd ra rb c b
  obtain ⟨hzero, -, -⟩ := hwritten v u hv hu
  exact hzero hz

theorem DivisionRule.faults_divOverflow (h : DivisionRule mk op zero overflow value) (hv : b.readReg ra = some v)
    (hu : b.readReg rb = some u) (hz : ¬ zero c v u) (ho : overflow c v u) :
    Faults (mk rd ra rb) c b .divOverflow := by
  obtain ⟨-, hwritten, -⟩ := h rd ra rb c b
  obtain ⟨-, hoverflow, -⟩ := hwritten v u hv hu
  exact hoverflow hz ho

theorem DivisionRule.completes (h : DivisionRule mk op zero overflow value) (hv : b.readReg ra = some v)
    (hu : b.readReg rb = some u) (hz : ¬ zero c v u) (ho : ¬ overflow c v u) :
    Completes (mk rd ra rb) c b rd (some (value c v u)) := by
  obtain ⟨-, hwritten, -⟩ := h rd ra rb c b
  obtain ⟨-, -, hcompletes⟩ := hwritten v u hv hu
  exact hcompletes hz ho

/-- A division raises `DIV_OVERFLOW` for written operands that overflow, and for no others. -/
theorem DivisionRule.overflow_of_faults (h : DivisionRule mk op zero overflow value)
    (hk : Faults (mk rd ra rb) c b .divOverflow) :
    ∃ v u, b.readReg ra = some v ∧ b.readReg rb = some u ∧ overflow c v u := by
  obtain ⟨-, -, hnone⟩ := h rd ra rb c b
  cases hv : b.readReg ra with
  | none => exact nomatch (hnone (.inl hv)).cause_eq hk
  | some v =>
    cases hu : b.readReg rb with
    | none => exact nomatch (hnone (.inr hu)).cause_eq hk
    | some u =>
      by_cases hz : zero c v u
      · exact nomatch (h.faults_divZero hv hu hz).cause_eq hk
      · by_cases ho : overflow c v u
        · exact ⟨v, u, rfl, rfl, ho⟩
        · exact absurd hk (h.completes hv hu hz ho).not_faults

end Divisions

/-- Settles O29: the zero clause of the three division rules. -/
theorem zeroDivisorFaults : Obligations.ZeroDivisorFaults := by
  unfold Obligations.ZeroDivisorFaults
  intro rd ra rb c b v hv hu
  have hzero : sint 0#c.W = 0 := BitVec.toInt_zero
  exact ⟨divFFDividesTheWidenedDividend.faults_divZero hv hu hzero,
    divFIDividesTheRawPattern.faults_divZero hv hu hzero, divIFUpscalesTheInteger.faults_divZero hv hu hzero⟩

theorem sint_wrap_neg_one (w : Width) : sint (wrap w.bits (-1)) = -1 := by
  cases w <;> rfl

/-- Below 64 bits the shifted dividend never is the least value of the accumulator (R164). -/
theorem shifted_dividend_ne_least {c : Config} (hW : c.W ≤ 32) (v : BitVec c.W) :
    sintN c.WW (sint v * 2 ^ c.P) ≠ -2 ^ (c.WW - 1) := by
  obtain ⟨hexact, -, -⟩ := accumulatorIsExactBelow64
  obtain ⟨-, -, hfits, hne⟩ := hexact c v v hW
  rwa [hfits]

/-- Settles O30: the overflow clause of the three division rules, for a divisor of -1; at 64 bits with `P = 32` the
dividend `2^31` is shifted to `2^63`, which wraps to the least value. -/
theorem quotientOverflowFaults : Obligations.QuotientOverflowFaults := by
  unfold Obligations.QuotientOverflowFaults
  have hminus (c : Config) : sint (wrap c.W (-1)) = -1 := sint_wrap_neg_one c.width
  have hnonzero (c : Config) : ¬ sint (wrap c.W (-1)) = 0 := by simp [hminus c]
  refine ⟨fun rd ra rb c b hv hu => ?_, fun rd ra rb c b v hv hu => ⟨fun hleast => ?_, fun hleast => ?_⟩,
    ⟨⟨.w64, ⟨32, by decide⟩⟩, 0x80000000#64, by decide⟩, fun rd ra rb c b hW => ⟨fun hk => ?_, fun hk => ?_⟩⟩
  · have hleast : sint (BitVec.intMin c.W) = -2 ^ (c.W - 1) := BitVec.toInt_intMin_of_pos (width_bits_pos c.width)
    exact divFIDividesTheRawPattern.faults_divOverflow hv hu (hnonzero c) ⟨hleast, hminus c⟩
  · exact divFFDividesTheWidenedDividend.faults_divOverflow hv hu (hnonzero c) ⟨hleast, hminus c⟩
  · exact divIFUpscalesTheInteger.faults_divOverflow hv hu (hnonzero c) ⟨hleast, hminus c⟩
  · obtain ⟨v, -, -, -, hleast, -⟩ := divFFDividesTheWidenedDividend.overflow_of_faults hk
    exact shifted_dividend_ne_least hW v hleast
  · obtain ⟨v, -, -, -, hleast, -⟩ := divIFUpscalesTheInteger.overflow_of_faults hk
    exact shifted_dividend_ne_least hW _ hleast

/-- Settles O32: of the outcomes of `exec_cases` written operands exclude `UNINIT_READ`, and only divisions have the
others; a divisor other than 0 and -1 is past both checks of a division rule. -/
theorem arithmeticOverflowNeverFaults : Obligations.ArithmeticOverflowNeverFaults := by
  unfold Obligations.ArithmeticOverflowNeverFaults
  refine ⟨fun i c b hdiv hwritten => ?_, fun rd ra rb c b v u hv hu hzero hminus => ?_⟩
  · rcases exec_cases i c b with h | h | ⟨hisDiv, -⟩
    · exact h
    · obtain ⟨r, hr, hnone⟩ := faults_uninitRead_iff.mp (faults_of_takeFault h)
      exact absurd hnone (hwritten r hr)
    · exact absurd hisDiv (by simp [hdiv])
  · exact ⟨_, _, _, divFFDividesTheWidenedDividend.completes hv hu hzero fun ⟨_, h⟩ => hminus h,
      divFIDividesTheRawPattern.completes hv hu hzero fun ⟨_, h⟩ => hminus h,
      divIFUpscalesTheInteger.completes hv hu hzero fun ⟨_, h⟩ => hminus h⟩

/-- A division that raises `DIV_OVERFLOW` has written operands and the divisor -1 (R164). -/
theorem operands_of_divOverflow {i : Instr} {rd ra rb : Reg} {c : Config} {b : Block c.W}
    (hi : i = .divFF rd ra rb ∨ i = .divFI rd ra rb ∨ i = .divIF rd ra rb) (hk : Faults i c b .divOverflow) :
    ∃ v u, b.readReg ra = some v ∧ b.readReg rb = some u ∧ sint u = -1 := by
  rcases hi with rfl | rfl | rfl
  · obtain ⟨v, u, hv, hu, -, hminus⟩ := divFFDividesTheWidenedDividend.overflow_of_faults hk
    exact ⟨v, u, hv, hu, hminus⟩
  · obtain ⟨v, u, hv, hu, -, hminus⟩ := divFIDividesTheRawPattern.overflow_of_faults hk
    exact ⟨v, u, hv, hu, hminus⟩
  · obtain ⟨v, u, hv, hu, -, hminus⟩ := divIFUpscalesTheInteger.overflow_of_faults hk
    exact ⟨v, u, hv, hu, hminus⟩

/-! ### The checks through the step (R161, R165, R166) -/

section Step

variable {c : Config} {b : Block c.W} {v : OpWord}

theorem step_of_decode_ok {i : Instr} (hrs : b.rs = .run) (hv : b.wordAtPc = some v) (hd : decode v = .ok i) :
    step ⟨c, b⟩ = exec i ⟨c, b⟩ := by
  simp [step, hrs, Block.fetch_word hv, hd]

theorem step_of_decode_error {e : DecodeReject} (hrs : b.rs = .run) (hv : b.wordAtPc = some v)
    (hd : decode v = .error e) : step ⟨c, b⟩ = .next ⟨c, b.takeFault .illegalInstruction⟩ := by
  simp [step, hrs, Block.fetch_word hv, hd]

end Step

/-- Settles O31: the step is `exec` of the decoded instruction, whose faults are those of `faults_uninitRead_iff` and of
the division rules. -/
theorem faultChecksComeInOrder : Obligations.FaultChecksComeInOrder := by
  unfold Obligations.FaultChecksComeInOrder
  intro c b w hrs hw
  have hstep {i : Instr} {k : Cause} (hd : decode w = .ok i) :
      step ⟨c, b⟩ = .next ⟨c, b.takeFault k⟩ ↔ Faults i c b k := by
    rw [step_of_decode_ok hrs hw hd, faults_iff_exec_eq]
  refine ⟨fun e hd => step_of_decode_error hrs hw hd, fun i hd hnone => ?_, fun i rd ra rb v hd hi hv hu => ?_,
    fun i hd hwritten => ⟨fun h => ?_, fun h => ?_⟩, fun i rd ra rb hd hi h => ?_⟩
  · exact (hstep hd).mpr (faults_uninitRead_iff.mpr hnone)
  · obtain ⟨hFF, hFI, hIF⟩ := zeroDivisorFaults rd ra rb c b v hv hu
    rw [hstep hd]
    rcases hi with rfl | rfl | rfl
    · exact hFF
    · exact hFI
    · exact hIF
  · obtain ⟨r, hr, hnone⟩ := faults_uninitRead_iff.mp ((hstep hd).mp h)
    exact hwritten r hr hnone
  · exact not_faults_illegalInstruction ((hstep hd).mp h)
  · obtain ⟨v, u, hv, hu, hminus⟩ := operands_of_divOverflow hi ((hstep hd).mp h)
    exact ⟨by simp [hv], u, hu, hminus⟩

/-- A word is rejected when no row has its opcode, or when the one row that has it wants a bit zero that is set (R51,
R55). -/
theorem exists_decode_error {v : OpWord}
    (h : (∀ row ∈ opcodeRows, row.1 ≠ opcodeField v) ∨
      ∃ row ∈ opcodeRows, row.1 = opcodeField v ∧ mustBeZeroOk row.2 v = false) : ∃ e, decode v = .error e := by
  cases hd : decode v with
  | error e => exact ⟨e, rfl⟩
  | ok i =>
    obtain ⟨row, hrow, hmatch⟩ := (exists_decode_iff v).mp ⟨i, hd⟩
    obtain ⟨hop, hz⟩ := (rowMatches_iff ..).mp hmatch
    rcases h with hnone | ⟨row', hrow', hop', hset⟩
    · exact absurd hop.symm (hnone row hrow)
    · cases List.inj_on_of_nodup_map nodup_opcodes hrow hrow' (hop.symm.trans hop'.symm)
      simp [hz] at hset

/-- Settles O10: such a word does not decode, so the step takes the fault before any register is read. -/
theorem illegalWordsFault : Obligations.IllegalWordsFault := by
  unfold Obligations.IllegalWordsFault
  intro c b v hrs hv h
  obtain ⟨e, hd⟩ := exists_decode_error h
  exact ⟨_, step_of_decode_error hrs hv hd, b.faultedTo_takeFault _, rfl, b.takeFault_fword _ hv⟩

/-- Settles O12, by `Block.takeFault_eq`. -/
theorem faultEntryRecordsCausePcAndWord : Obligations.FaultEntryRecordsCausePcAndWord := by
  unfold Obligations.FaultEntryRecordsCausePcAndWord
  exact fun _ _ k _ hv => ⟨Block.takeFault_eq hv k, rfl, rfl⟩

/-! ### The host outside IDLE (R167, R170) -/

/-- Settles O58: of the cases of `hostAct_cases` all but reset and the last need IDLE. -/
theorem hostDisturbsNoRunButByReset : Obligations.HostDisturbsNoRunButByReset := by
  unfold Obligations.HostDisturbsNoRunButByReset
  intro c b cmd hrs hreset
  obtain ⟨h, -⟩ | ⟨_, -, hidle, -⟩ | ⟨_, _, -, hidle, -⟩ | ⟨-, hidle, -⟩ | ⟨-, -, h⟩ := hostAct_cases c cmd b
  case inl => exact absurd h hreset
  case inr.inr.inr.inr => exact h
  all_goals exact absurd hidle hrs

end Sys2Proof.Machine
end

section
/-! Reset, the step of a run, its end, and the table of the host's interactions (70_reset_and_hazards.md R180, R183 to
R185). -/

namespace Sys2Proof.Machine

/-! ### Reset (R180) -/

/-- Settles O6: `Block.applyReset`, whose status registers are the zero patterns and whose registers hold no value. -/
theorem resetEmptiesTheBlock : Obligations.ResetEmptiesTheBlock := by
  unfold Obligations.ResetEmptiesTheBlock
  exact fun _ b => ⟨b.applyReset, rfl, b.readReg_applyReset, rfl, rfl, rfl, rfl, rfl, rfl⟩

/-- Settles O7: `State.inv_resetOf` for every configuration; `State.reset` is that of `fixed<32,15>` (assumption 1). -/
theorem resetStateMeetsInvariant : Obligations.ResetStateMeetsInvariant := by
  unfold Obligations.ResetStateMeetsInvariant
  exact ⟨fun c => ⟨State.inv_resetOf c, rfl, rfl⟩, State.inv_resetOf _, rfl, rfl⟩

/-! ### The step of a run (R183) -/

/-- Settles O8, by `step_of_decode_ok`. -/
theorem stepRunsTheDecodedInstruction : Obligations.StepRunsTheDecodedInstruction := by
  unfold Obligations.StepRunsTheDecodedInstruction
  exact fun _ _ _ => step_of_decode_ok

theorem Block.fetch_endOfProgram {w : Nat} {b : Block w} (h : b.pc.toNat = b.program.length) :
    b.fetch = .endOfProgram :=
  if_pos h

theorem step_of_endOfProgram {c : Config} {b : Block c.W} (hrs : b.rs = .run)
    (hpc : b.pc.toNat = b.program.length) : step ⟨c, b⟩ = .next ⟨c, b.endRun⟩ := by
  simp [step, hrs, Block.fetch_endOfProgram hpc]

/-- Settles O9: the three things a running block can find at its pc. -/
theorem stepFollowsTheRun : Obligations.StepFollowsTheRun := by
  unfold Obligations.StepFollowsTheRun
  exact fun _ b hrs => ⟨step_of_endOfProgram hrs, fun _ hv => ⟨fun _ => step_of_decode_ok hrs hv,
    fun _ hd => ⟨_, step_of_decode_error hrs hv hd, b.faultedTo_takeFault _⟩⟩⟩

/-! ### The end of a run (R184) -/

/-- The host reads FCAUSE as 0 exactly when its stored field is 0: the other bits are hardwired 0 (R23). -/
theorem Block.readFcause_eq_zero_iff {w : Nat} {b : Block w} : b.readFcause = 0#32 ↔ b.fcause = 0#3 := by
  have hzext : b.readFcause = b.fcause.setWidth 32 := by simp [Block.readFcause, zext]
  rw [hzext, ← BitVec.toNat_inj, ← BitVec.toNat_inj, BitVec.toNat_setWidth_of_le (by decide)]
  rfl

/-- Only the host's load writes the program store (R41). -/
theorem step_program {s t : State} (h : step s = .next t) : t.block.program = s.block.program := by
  obtain ⟨c, b⟩ := s
  obtain ⟨-, rfl⟩ | ⟨-, -, rfl⟩ | ⟨-, -, _, _, b', hb', rfl⟩ | ⟨-, -, _, _, -, rfl⟩ := step_next_cases h
  case inr.inr.inl =>
    obtain ⟨-, -, -, hprog, -⟩ := hb'
    exact hprog
  all_goals rfl

/-- What every step keeps, a run keeps. -/
theorem run_keeps {p : State → Prop} (hp : ∀ s t, p s → step s = .next t → p t) {k : Nat} {s t : State} (hs : p s)
    (h : Host.Core.run core k s = .next t) : p t := by
  induction k generalizing s with
  | zero => cases h; exact hs
  | succ k ih =>
    obtain ⟨s', hstep, hrun⟩ := run_succ_next (M := core) h
    exact ih (hp s s' hs hstep) hrun

theorem run_program {k : Nat} {s t : State} (h : Host.Core.run core k s = .next t) :
    t.block.program = s.block.program :=
  run_keeps (p := fun u => u.block.program = s.block.program) (fun _ _ hu hstep => (step_program hstep).trans hu) rfl h

theorem State.Inv.run {k : Nat} {s t : State} (hs : s.Inv) (h : Host.Core.run core k s = .next t) : t.Inv :=
  run_keeps everyStepKeepsTheInvariant hs h

/-- A run ends in DONE with `pc = L` and no cause (R184). -/
theorem Block.Inv.pc_and_cause_of_done {w : Nat} {b : Block w} (h : b.Inv) (hrs : b.rs = .done) :
    b.pc.toNat = b.program.length ∧ b.readFcause = 0#32 := by
  obtain ⟨-, -, -, hend, hstatus, -⟩ := h
  obtain ⟨hfcause, -, -⟩ := hstatus (by simp [hrs])
  exact ⟨hend hrs, Block.readFcause_eq_zero_iff.mpr hfcause⟩

/-- A run ends in FAULT with a cause (R184). -/
theorem Block.Inv.readFcause_ne_zero {w : Nat} {b : Block w} (h : b.Inv) (hrs : b.rs = .fault) :
    b.readFcause ≠ 0#32 := by
  obtain ⟨-, -, -, -, -, hfault⟩ := h
  obtain ⟨hcause, -⟩ := hfault hrs
  intro hzero
  simp [Block.readFcause_eq_zero_iff.mp hzero] at hcause

/-- Settles O56: `run_ends` bounds the run and counts the steps to DONE; the invariant, which the run keeps, says where
it ends and with which FCAUSE. -/
theorem everyRunEndsWithinItsLength : Obligations.EveryRunEndsWithinItsLength := by
  unfold Obligations.EveryRunEndsWithinItsLength
  intro c b hinv hrs
  obtain ⟨k, t, hk, hrun, hend⟩ := run_ends hinv hrs rfl
  have htinv : t.Inv := State.Inv.run hinv hrun
  refine ⟨k, t, hk, hrun, hend.imp_left And.left, fun hdone => ?_, htinv.readFcause_ne_zero⟩
  obtain ⟨-, hcount⟩ := hend.resolve_right (by simp [hdone])
  obtain ⟨hpc, hcause⟩ := htinv.pc_and_cause_of_done hdone
  have hprog : t.program = b.program := run_program hrun
  exact ⟨hcount, hprog ▸ hpc, hcause⟩

/-! ### The table of the host (R185)

Each interaction where the table allows it and where it does not; the reads of the status registers, CFG and RS are
allowed in every state. -/

section Table

variable {c : Config} {b : Block c.W}

theorem hostAct_load (hrs : b.rs = .idle) {ws : List OpWord} (hws : ws.length ≤ 2 ^ 32 - 1) :
    hostAct c (.load ws) b = (b.hostLoad ws, .nothing) :=
  if_pos ⟨hrs, decide_eq_true hws⟩

theorem hostAct_load_refused (hrs : b.rs ≠ .idle) (ws : List OpWord) : hostAct c (.load ws) b = (b, .refused) :=
  if_neg fun ⟨hidle, _⟩ => hrs hidle

theorem hostAct_writeReg (hrs : b.rs = .idle) (i : Reg) (v : BitVec c.W) :
    hostAct c (.writeReg i v) b = (b.writeReg i v, .nothing) :=
  if_pos hrs

theorem hostAct_writeReg_refused (hrs : b.rs ≠ .idle) (i : Reg) (v : BitVec c.W) :
    hostAct c (.writeReg i v) b = (b, .refused) :=
  if_neg hrs

theorem hostAct_start (hrs : b.rs = .idle) : hostAct c .start b = ({ b with rs := .run, pc := 0#32 }, .nothing) := by
  rw [← Block.applyStart_of_idle hrs]
  exact if_pos hrs

theorem hostAct_start_refused (hrs : b.rs ≠ .idle) : hostAct c .start b = (b, .refused) :=
  if_neg hrs

theorem hostAct_readReg (hrs : b.rs ≠ .run) (i : Reg) : hostAct c (.readReg i) b = (b, b.hostRead i) :=
  if_neg hrs

theorem hostAct_readReg_refused (hrs : b.rs = .run) (i : Reg) : hostAct c (.readReg i) b = (b, .refused) :=
  if_pos hrs

theorem Block.hostRead_of_some {i : Reg} {v : BitVec c.W} (h : b.readReg i = some v) : b.hostRead i = .value v := by
  rw [Block.hostRead, h]

theorem Block.hostRead_of_none {i : Reg} (h : b.readReg i = none) : b.hostRead i = .undef := by
  rw [Block.hostRead, h]

end Table

/-- A register write changes that register alone (R19, R20). -/
theorem Block.readReg_writeReg_frame {w : Nat} (b : Block w) (i : Reg) (v : BitVec w) :
    (b.writeReg i v).readReg i = some v ∧ b.sameRegsBut i (b.writeReg i v) :=
  Block.sameRegsBut_of_readReg (b.readReg_writeReg i · v)

/-- Settles O59: elaboration by `elaborate_isSome_iff`, each other row by its lemmas above. -/
theorem hostInteractionsFollowTheTable : Obligations.HostInteractionsFollowTheTable := by
  unfold Obligations.HostInteractionsFollowTheTable
  refine ⟨fun _ _ => elaborate_isSome_iff, fun c b => ⟨rfl, fun _ hws hrs => hostAct_load hrs hws,
    fun ws hrs => hostAct_load_refused hrs ws, fun i v hrs => ?_, fun i v hrs => hostAct_writeReg_refused hrs i v,
    hostAct_start, hostAct_start_refused, fun i v hrs hv => ?_, fun i hrs hnone => ?_,
    fun i hrs => hostAct_readReg_refused hrs i, rfl, rfl, rfl, rfl, rfl⟩⟩
  · obtain ⟨hread, hothers⟩ := b.readReg_writeReg_frame i v
    exact ⟨b.writeReg i v, hostAct_writeReg hrs i v, hread, hothers, rfl, rfl, rfl, rfl, rfl, rfl⟩
  · rw [hostAct_readReg hrs, Block.hostRead_of_some hv]
  · rw [hostAct_readReg hrs, Block.hostRead_of_none hnone]

end Sys2Proof.Machine
end
